-- ==== Sys2Proof/Word.lean ====
section
/-!
DEFINITION. The widths of LS-I2A (00_scope.md R9, R11): bytes of BUF, nibbles of a hex operand, 16-bit and 32-bit
operands, 64-bit words of the command port.
-/

namespace Sys2Proof

/-- One byte of BUF, of the digit table or of the hex-digit ROM. -/
abbrev Byte := BitVec 8

/-- One hex digit (00_scope.md R15). -/
abbrev Nibble := BitVec 4

/-- An index of the digit table, the operand of U16 (00_scope.md R9). -/
abbrev Word16 := BitVec 16

/-- The operand field OPD, and the registers CUR, RES and STATUS (00_scope.md R9). -/
abbrev Word32 := BitVec 32

/-- One word of the command port, and the register FCMD (00_scope.md R9). -/
abbrev Word64 := BitVec 64

/-- A legal or illegal value of the parameter BUF_SIZE: its upper bound `2^32 - 1` is in the type
(00_scope.md R10); its lower bound 1 is part of the state invariant. -/
abbrev BufSize := Fin 4294967296

end Sys2Proof
end

