-- ==== Sys2Proof/Config.lean ====
section
/-!
DEFINITION. What an implementation fixes and the values the spec leaves open. An `opaque` constant has no body, so no
proof can see its value: it is the spec's "any value" (93_implementation_defined.md U8, U9, U10).
-/

namespace Sys2Proof.Config

/-- BUF_SIZE of the state `State.reset`. DESIGN CHOICE (entry 1, unsafe for runs from `State.reset`): the spec leaves
BUF_SIZE open (00_scope.md R10); 16 is the size its own vectors start from (95_test_vectors.md section 2). The size is a
field of the state, so statements over all states are for every BUF_SIZE. -/
def bufSizeAtReset : BufSize := 16

/-- The free contents of the length part of digit-table entry `v` before any INIT wrote it; `seed` tells one reset's
contents from the next's (10_state.md R22; U9; entry 3). -/
opaque freeTblLen (seed : Nat) (v : Word16) : BitVec 3

/-- The free contents of byte `i` of the text part of digit-table entry `v` where no INIT wrote it
(40_table_init.md R81; U8, U9; entry 3). -/
opaque freeTblText (seed : Nat) (v : Word16) (i : Nat) : Byte

/-- What the host reads from a BUF byte that nothing has written since power-up (10_state.md R27; U10; entry 2). -/
opaque freeBufByte (a : Nat) : Byte

end Sys2Proof.Config
end

