-- ==== Sys2Proof/Syntax.lean ====
section
/-!
DEFINITION. The commands of LS-I2A (30_encoding.md R61), one constructor per row of the opcode table.
A command is its opcode and its whole 32-bit operand field OPD: the decoder dispatches on OPC and RSV alone
(R66), and the operand checks (R62) belong to the commands. The payload words of STR follow the command word on the
command stream (R63); they are data the command takes with `NextWord()`, not part of the command word (entry 9).
-/

namespace Sys2Proof

/-- A decoded command word. `opd` is `w[31:0]`. -/
inductive Instr where
  /-- Populate the digit table (R80). -/
  | init (opd : Word32)
  /-- Write one digit character (R91). -/
  | char (opd : Word32)
  /-- 8-bit unsigned to decimal through the table (R92). -/
  | u8 (opd : Word32)
  /-- 16-bit unsigned to decimal through the table (R93). -/
  | u16 (opd : Word32)
  /-- Copy a literal carried in payload words (R94). -/
  | str (opd : Word32)
  /-- 32-bit to lowercase hex (R112). -/
  | hex (opd : Word32)
  /-- 32-bit to lowercase hex, the alternate opcode (R113). -/
  | hex2 (opd : Word32)
  /-- Load the cursor register (R120). -/
  | setcur (opd : Word32)
  deriving DecidableEq, Repr

end Sys2Proof
end

