-- ==== Sys2Proof/WellFormed.lean ====
section
/-!
DEFINITION. Well-formed commands: the operand bits that must be 0 are 0 (30_encoding.md R62). An ill-formed command is
still a command of the machine: it is decoded, and it takes the fault that R62 names.
-/

namespace Sys2Proof

/-- The must-be-zero bits of OPD, command by command (30_encoding.md R62). -/
def Instr.wf : Instr → Bool
  | .init opd => opd == 0
  | .char opd => opd.extractLsb' 8 24 == 0
  | .u8 opd => opd.extractLsb' 8 24 == 0
  | .u16 opd => opd.extractLsb' 16 16 == 0
  | .str _ => true
  | .hex _ => true
  | .hex2 _ => true
  | .setcur _ => true

end Sys2Proof
end

