-- ==== Sys2Proof/Decode.lean ====
section
/-!
DEFINITION. The decoder and the encoder of command words (30_encoding.md R60 to R67).
-/

namespace Sys2Proof

/-- `OPC = w[63:56]` (R60). -/
def opcField (w : Word64) : Byte := w.extractLsb' 56 8

/-- `RSV = w[55:32]` (R60). -/
def rsvField (w : Word64) : BitVec 24 := w.extractLsb' 32 24

/-- `OPD = w[31:0]` (R60). -/
def opdField (w : Word64) : Word32 := w.extractLsb' 0 32

/-- Why a command word is illegal (R65). -/
inductive DecodeError where
  /-- `OPC = 0x00` or `OPC` in `0x09 .. 0xFF`. -/
  | badOpcode
  /-- A legal OPC with `RSV != 0`. -/
  | reservedBits
  deriving DecidableEq, Repr

/-- The opcode map (R61): the command of an opcode and an operand, none for a reserved opcode. -/
def instrOf (opc : Byte) (opd : Word32) : Option Instr :=
  match opc.toNat with
  | 0x01 => some (.init opd)
  | 0x02 => some (.char opd)
  | 0x03 => some (.u8 opd)
  | 0x04 => some (.u16 opd)
  | 0x05 => some (.str opd)
  | 0x06 => some (.hex opd)
  | 0x07 => some (.hex2 opd)
  | 0x08 => some (.setcur opd)
  | _ => none

/-- The decode procedure (R66), total on 64-bit words: OPC first, then RSV. -/
def decode (w : Word64) : Except DecodeError Instr :=
  match instrOf (opcField w) (opdField w) with
  | none => .error .badOpcode
  | some i => if rsvField w ≠ 0 then .error .reservedBits else .ok i

/-- `ceil(len / 8)`, the number of payload words of a STR of `len` bytes (R63). -/
def payloadWords (len : Nat) : Nat := (len + 7) / 8

/-- The length in words of the command that a word begins, told from its OPC, and for STR its OPD, whatever its RSV;
none for an illegal OPC, where no length is defined (R67). -/
def commandLength (w : Word64) : Option Nat :=
  match instrOf (opcField w) (opdField w) with
  | some (.str opd) => some (1 + payloadWords opd.toNat)
  | some _ => some 1
  | none => none

/-- The opcode of a command (R61). -/
def opcodeOf : Instr → Byte
  | .init _ => 0x01
  | .char _ => 0x02
  | .u8 _ => 0x03
  | .u16 _ => 0x04
  | .str _ => 0x05
  | .hex _ => 0x06
  | .hex2 _ => 0x07
  | .setcur _ => 0x08

/-- The operand field of a command. -/
def operandOf : Instr → Word32
  | .init opd => opd
  | .char opd => opd
  | .u8 opd => opd
  | .u16 opd => opd
  | .str opd => opd
  | .hex opd => opd
  | .hex2 opd => opd
  | .setcur opd => opd

/-- The command word of a command: OPC, then RSV = 0, then OPD (R60, R61). -/
def encode (i : Instr) : Word64 := opcodeOf i ++ (0 : BitVec 24) ++ operandOf i

/-- Word `j` (0 for the command word) of an instruction whose bits, the first word lowest, are `bits`. -/
def portWord (bits j : Nat) : Word64 := BitVec.ofNat 64 (bits >>> (64 * j))

/-- The words the host delivers for an instruction whose low `nbits` bits are `w`, every bit above them 0: the command
word, and for a STR all its payload words (R63, R67). -/
def portWords (nbits w : Nat) : List Word64 :=
  let bits := w % 2 ^ nbits
  let first := portWord bits 0
  let n := (commandLength first).getD 1
  first :: (List.range (n - 1)).map (fun j => portWord bits (j + 1))

/-- The command that the decoder reads from an instruction whose low `nbits` bits are `w`: the decoder looks at the
first word alone (R67). -/
def decodeTableWord (nbits w : Nat) : Option Instr :=
  match decode (portWord (w % 2 ^ nbits) 0) with
  | .ok i => some i
  | .error _ => none

end Sys2Proof
end

