-- ==== Sys2Proof/Machine/State.lean ====
section
/-!
DEFINITION. The state of LS-I2A (10_state.md R20), its reset value, and the reasons a step or a host action can stop.
The hex-digit ROM is a constant and stands in Machine/Characters.lean.
-/

namespace Sys2Proof.Machine

/-- The cells of BUF that something has written, addresses strictly rising. An address that is not listed holds no
written value (entry 2). -/
structure Memory where
  cells : List Host.Cell
  deriving DecidableEq, Repr

/-- A memory in which nothing has been written. -/
def Memory.empty : Memory := ⟨[]⟩

/-- The digit table TBL_TEXT, TBL_LEN (R22), as plain data: R84 lets a model hold the table abstractly. `seed` selects
the free contents of the parts that no INIT has written; `built` says that an INIT has written the table (entry 3).
The contents are read with `tblLen` and `tblText`. -/
structure DigitTable where
  seed : Nat
  built : Bool
  deriving DecidableEq, Repr

/-- The architectural state (R20), the parameter BUF_SIZE (00_scope.md R10) and the command stream (R28). -/
structure State where
  /-- The parameter BUF_SIZE. No command and no host action changes it. -/
  bufSize : BufSize
  /-- The destination buffer BUF (R27). -/
  buf : Memory
  /-- The digit table (R22). -/
  table : DigitTable
  /-- STATUS.INIT_DONE (R21). -/
  initDone : Bool
  /-- STATUS.FCAUSE (R21); 0 means no fault. -/
  fcause : Byte
  /-- The cursor register CUR (R24). -/
  cur : Word32
  /-- The result-length register RES (R25). -/
  res : Word32
  /-- The faulting-command register FCMD (R26). -/
  fcmd : Word64
  /-- The words the host has delivered and the block has not consumed, the next one first (R28). -/
  port : List Word64
  /-- The command stream position: how many words have been consumed since reset (R20, R28, R30). -/
  pos : Nat
  deriving DecidableEq, Repr

/-- The fault causes of the block (60_exceptions.md R131). They are what FCAUSE records; a fault of the block is a next
state of the model (R133). -/
inductive FaultCause where
  | badOpcode
  | reservedBits
  | operandRange
  | notDigit
  | notInit
  | bufOverflow
  | cursorRange
  | padNonZero
  deriving DecidableEq, Repr

/-- The reasons this model stops with a fault. -/
inductive Fault where
  /-- Raised by `hostStep` for a host access to BUF at an address that is not in `0 .. BUF_SIZE-1`: such an access is
  outside the spec and has no step (20_memory.md R52; entry 8). No command raises it. Safe. -/
  | hostAddressOutsideBuf (a : Nat)
  /-- Raised by `hostStep` for a host access to address `a` of BUF while the block is not idle: the host may touch BUF
  only while the block is idle (20_memory.md R51, R52), and the spec gives any other access no step (entry 7). No command
  raises it. Safe. -/
  | hostAccessNotIdle (a : Nat)
  deriving DecidableEq, Repr

/-- The reasons this model refuses. -/
inductive Refusal where
  /-- The interface's reason for a command without a meaning. Every command has one, so nothing raises it. Safe. -/
  | notModelled (mnemonic : String)
  deriving DecidableEq, Repr

/-- The block after power-up: the reset column of R20 and 70_reset_and_hazards.md R150 around a buffer of a given size
and given contents (reset does not change BUF) and a table with the free contents of `seed`. -/
def State.powerUp (bufSize : BufSize) (buf : Memory) (seed : Nat) : State :=
  { bufSize := bufSize
    buf := buf
    table := { seed := seed, built := false }
    initDone := false
    fcause := 0
    cur := 0
    res := 0
    fcmd := 0
    port := []
    pos := 0 }

/-- The machine right after reset: the values of R20 and R150, an unwritten BUF of the size of entry 1, and the table's
free contents of seed 0 (entry 3). -/
def State.reset : State := State.powerUp Config.bufSizeAtReset Memory.empty 0

end Sys2Proof.Machine
end

