-- ==== Sys2Proof/Machine/Flags.lean ====
section
/-!
DEFINITION. The flags and the STATUS word (10_state.md R21, R34). LS-I2A has no arithmetic condition codes.
-/

namespace Sys2Proof.Machine

/-- STATUS.FAULTED, hard-wired to `FCAUSE != 0` (R21). -/
def faulted (s : State) : Bool := s.fcause != 0

/-- The STATUS word: FCAUSE in 15:8, FAULTED in bit 1, INIT_DONE in bit 0, every other bit 0 (R21). -/
def statusWord (s : State) : Word32 :=
  (0 : BitVec 16) ++ s.fcause ++ (0 : BitVec 6) ++ BitVec.ofBool (faulted s) ++ BitVec.ofBool s.initDone

end Sys2Proof.Machine
end

