-- ==== Sys2Proof/Machine/Ops.lean ====
section
/-!
DEFINITION. The named operations over BUF, the registers and the command stream: byte and run accesses, the capacity
check, the write at the cursor, the consumption of words, taking a fault, and reset, which alone leaves the halt.
-/

namespace Sys2Proof.Machine

/-- The byte written at `a`, none where nothing has been written. -/
def getCell (a : Nat) : List Host.Cell → Option Byte
  | [] => none
  | (x, b) :: rest => if a = x then some b else getCell a rest

/-- The cells with byte `b` at `a`, addresses kept rising. -/
def putCell (a : Nat) (b : Byte) : List Host.Cell → List Host.Cell
  | [] => [(a, b)]
  | (x, c) :: rest =>
    if a < x then (a, b) :: (x, c) :: rest
    else if a = x then (a, b) :: rest
    else (x, c) :: putCell a b rest

/-- The canonical form of a memory: addresses strictly rising. An unlisted address holds no value, so no listed entry
can equal what an unlisted address reads as (entry 2). -/
abbrev Memory.wf (m : Memory) : Prop := m.cells.Pairwise (fun x y => x.1 < y.1)

/-- The written byte at `a`, none for a byte that nothing has written. -/
def readByte (m : Memory) (a : Nat) : Option Byte := getCell a m.cells

/-- Byte `a` of BUF as the host sees it: the written byte, or the free power-up contents (10_state.md R27; entry 2). -/
def bufByte (m : Memory) (a : Nat) : Byte := (readByte m a).getD (Config.freeBufByte a)

/-- `BUF[a] <- b`. -/
def writeByte (m : Memory) (a : Nat) (b : Byte) : Memory := ⟨putCell a b m.cells⟩

/-- `MemRead(addr, n)` (00_scope.md R12). Only the host reads BUF. -/
def memRead (m : Memory) (addr n : Nat) : List Byte := (List.range n).map (fun i => bufByte m (addr + i))

/-- `MemWrite(addr, len(s), s)`, with `s[0]` at `addr` (00_scope.md R12; 20_memory.md R41). -/
def memWrite (m : Memory) (addr : Nat) : List Byte → Memory
  | [] => m
  | b :: bs => memWrite (writeByte m addr b) (addr + 1) bs

/-- `CapacityOK(m)`, on unbounded naturals (20_memory.md R44). -/
def capacityOK (s : State) (m : Nat) : Bool := s.cur.toNat + m ≤ s.bufSize.val

/-- The command takes `n` words of the stream (10_state.md R28, R30). -/
def consume (n : Nat) (s : State) : State := { s with port := s.port.drop n, pos := s.pos + n }

/-- Write the bytes `out` at CUR and advance CUR past them (20_memory.md R45). -/
def emit (out : List Byte) (s : State) : State :=
  { s with buf := memWrite s.buf s.cur.toNat out, cur := s.cur + BitVec.ofNat 32 out.length }

/-- `RES <- n` (10_state.md R25). -/
def setRes (n : Nat) (s : State) : State := { s with res := BitVec.ofNat 32 n }

/-- The cause codes (60_exceptions.md R131). -/
def faultCode : FaultCause → Byte
  | .badOpcode => 1
  | .reservedBits => 2
  | .operandRange => 3
  | .notDigit => 4
  | .notInit => 5
  | .bufOverflow => 6
  | .cursorRange => 7
  | .padNonZero => 8

/-- Fault entry (60_exceptions.md R133): FCAUSE and FCMD are written, the stream position moves past the `n` words the
faulting command has consumed, and nothing else changes. FAULTED becomes 1 with FCAUSE, which halts the block (R134). -/
def takeFault (f : FaultCause) (w : Word64) (n : Nat) (s : State) : State :=
  { consume n s with fcause := faultCode f, fcmd := w }

/-- A fault that a command raises with `n` words consumed. FCMD receives the command word, which is the command's
encoding: the decoder dispatches only words with RSV = 0 (R65, R133). -/
def raise (f : FaultCause) (i : Instr) (n : Nat) (s : State) : Host.Outcome State Fault Refusal :=
  .next (takeFault f (encode i) n s)

/-- Reset (70_reset_and_hazards.md R150), the only way out of the halt (60_exceptions.md R137): BUF and its size are
kept, the table is unspecified again, every register and the stream position are 0, and no delivered word is left
(entry 5). -/
def resetBlock (s : State) : State := State.powerUp s.bufSize s.buf (s.table.seed + 1)

end Sys2Proof.Machine
end

