-- ==== Sys2Proof/Machine/Cursor.lean ====
section
/-!
DEFINITION. Cursor control: SETCUR (43_cursor.md R120).
-/

namespace Sys2Proof.Machine

/-- SETCUR (R120): `CUR <- OPD`; `OPD = BUF_SIZE` is legal. -/
def execSetcur (opd : Word32) (s : State) : Host.Outcome State Fault Refusal :=
  if s.bufSize.val < opd.toNat then raise .cursorRange (.setcur opd) 1 s
  else .next { consume 1 s with cur := opd }

end Sys2Proof.Machine
end

