-- ==== Sys2Proof/Machine/Characters.lean ====
section
/-!
DEFINITION. Characters: the ASCII codes the spec uses and the hex-digit ROM (00_scope.md R14; 10_state.md R23).
-/

namespace Sys2Proof.Machine

/-- `ASCII_DIGIT(d) = 0x30 + d` for `0 <= d <= 9` (00_scope.md R14). -/
def asciiDigit (d : Nat) : Byte := BitVec.ofNat 8 (0x30 + d)

/-- The sixteen bytes of HEXD (10_state.md R23). -/
def hexdRom : List Byte :=
  [0x30, 0x31, 0x32, 0x33, 0x34, 0x35, 0x36, 0x37,
   0x38, 0x39, 0x61, 0x62, 0x63, 0x64, 0x65, 0x66]

/-- `HEXD[n]` (10_state.md R23). -/
def hexd (n : Nibble) : Byte := hexdRom.getD n.toNat 0

end Sys2Proof.Machine
end

