-- ==== Sys2Proof/Machine/Decimal.lean ====
section
/-!
DEFINITION. Decimal rendering and the digit table (40_table_init.md R80, R81, R84; 10_state.md R22).
-/

namespace Sys2Proof.Machine

/-- `ndec(v)`, the number of decimal digits (R81). -/
def ndec (v : Nat) : Nat :=
  if v < 10 then 1
  else if v < 100 then 2
  else if v < 1000 then 3
  else if v < 10000 then 4
  else 5

/-- `dec(v)[i]` (R81). -/
def decDigit (v i : Nat) : Byte := asciiDigit ((v / 10 ^ (ndec v - 1 - i)) % 10)

/-- `dec(v)`, the decimal rendering, most significant digit first (R81). -/
def dec (v : Nat) : List Byte := (List.range (ndec v)).map (decDigit v)

/-- `TBL_LEN[v]`: `ndec(v)` once an INIT has written the table (R81), free before (R22). -/
def tblLen (t : DigitTable) (v : Word16) : BitVec 3 :=
  if t.built then BitVec.ofNat 3 (ndec v.toNat) else Config.freeTblLen t.seed v

/-- `TBL_TEXT[v][i]`: `dec(v)[i]` for `i < ndec(v)` once an INIT has written the table; free at the positions the INIT
loop does not write, and before (R22, R81). -/
def tblText (t : DigitTable) (v : Word16) (i : Nat) : Byte :=
  if t.built ∧ i < ndec v.toNat then decDigit v.toNat i else Config.freeTblText t.seed v i

/-- `TBL_TEXT[v][0 .. TBL_LEN[v]-1]`, what U8 and U16 copy (R92, R93). -/
def tblEntry (t : DigitTable) (v : Word16) : List Byte :=
  (List.range (tblLen t v).toNat).map (tblText t v)

/-- The table after the whole loop of INIT (R80, R84). The positions the loop does not write keep their contents. -/
def buildTable (t : DigitTable) : DigitTable := { t with built := true }

end Sys2Proof.Machine
end

