-- ==== Sys2Proof/Machine/Operands.lean ====
section
/-!
DEFINITION. The operand fields of OPD and the payload of STR (30_encoding.md R62, R63, R64; 20_memory.md R42).
Every field is unsigned and zero-extended.
-/

namespace Sys2Proof.Machine

/-- `OPD[7:0]`, the operand of CHAR and U8 (R62). -/
def opd8 (opd : Word32) : Byte := opd.extractLsb' 0 8

/-- `OPD[15:0]`, the operand of U16 (R62). -/
def opd16 (opd : Word32) : Word16 := opd.extractLsb' 0 16

/-- `OPD[31:8] != 0`, which CHAR and U8 refuse with OperandRange (R62). -/
def above8 (opd : Word32) : Bool := opd.extractLsb' 8 24 != 0

/-- `OPD[31:16] != 0`, which U16 refuses with OperandRange (R62). -/
def above16 (opd : Word32) : Bool := opd.extractLsb' 16 16 != 0

/-- The digit-table index of a U8 operand, zero-extended (R64, R92). -/
def u8Index (opd : Word32) : Word16 := (opd8 opd).setWidth 16

/-- `c` is the code of a decimal digit (41_decimal.md R91). -/
def isDigitCode (c : Byte) : Bool := 0x30 ≤ c.toNat && c.toNat ≤ 0x39

/-- Byte `k` of a payload: `payload[k / 8][8*(k mod 8)+7 : 8*(k mod 8)]` (R63). -/
def payloadByte (p : List Word64) (k : Nat) : Byte := (p.getD (k / 8) 0).extractLsb' (8 * (k % 8)) 8

/-- The `len` literal bytes of a payload (R63). -/
def literal (p : List Word64) (len : Nat) : List Byte := (List.range len).map (payloadByte p)

/-- Every byte of the payload at a position `len <= k < 8*P` is 0 (R63, R94). -/
def paddingZero (p : List Word64) (len : Nat) : Bool :=
  (List.range' len (8 * payloadWords len - len)).all (fun k => payloadByte p k == 0)

/-- The payload words of a STR of `len` bytes: the `P` words behind its command word, which is the next word of the
stream (R63). -/
def payloadAt (s : State) (len : Nat) : List Word64 := (s.port.drop 1).take (payloadWords len)

/-- The stream holds the command word and all `P` payload words of a STR of `len` bytes (70_reset_and_hazards.md
R161). -/
def payloadPresent (s : State) (len : Nat) : Bool := 1 + payloadWords len ≤ s.port.length

end Sys2Proof.Machine
end

