-- ==== Sys2Proof/Machine/DecimalFormat.lean ====
section
/-!
DEFINITION. The decimal and copy formatters: CHAR, U8, U16, STR (41_decimal.md R90 to R94). The checks stand in the
order their rule lists them (60_exceptions.md R135), before every write (00_scope.md R13).
-/

namespace Sys2Proof.Machine

/-- CHAR (R91): one digit character. RES is unchanged. -/
def execChar (opd : Word32) (s : State) : Host.Outcome State Fault Refusal :=
  if above8 opd then raise .operandRange (.char opd) 1 s
  else if !isDigitCode (opd8 opd) then raise .notDigit (.char opd) 1 s
  else if !capacityOK s 1 then raise .bufOverflow (.char opd) 1 s
  else .next (emit [opd8 opd] (consume 1 s))

/-- The common end of U8 and U16 (R92, R93): table entry `v` at the cursor, its length in RES. -/
def emitEntry (v : Word16) (s : State) : State :=
  setRes (tblLen s.table v).toNat (emit (tblEntry s.table v) s)

/-- U8 (R92): an 8-bit value in decimal, 3 bytes of capacity required. -/
def execU8 (opd : Word32) (s : State) : Host.Outcome State Fault Refusal :=
  if above8 opd then raise .operandRange (.u8 opd) 1 s
  else if !s.initDone then raise .notInit (.u8 opd) 1 s
  else if !capacityOK s 3 then raise .bufOverflow (.u8 opd) 1 s
  else .next (emitEntry (u8Index opd) (consume 1 s))

/-- U16 (R93): a 16-bit value in decimal, 5 bytes of capacity required. -/
def execU16 (opd : Word32) (s : State) : Host.Outcome State Fault Refusal :=
  if above16 opd then raise .operandRange (.u16 opd) 1 s
  else if !s.initDone then raise .notInit (.u16 opd) 1 s
  else if !capacityOK s 5 then raise .bufOverflow (.u16 opd) 1 s
  else .next (emitEntry (opd16 opd) (consume 1 s))

/-- STR (R94): copy the literal of the payload words. A STR that passes its capacity check waits, with nothing
consumed, until all its payload words are on the stream (70_reset_and_hazards.md R161; entry 4). RES is unchanged. -/
def execStr (opd : Word32) (s : State) : Host.Outcome State Fault Refusal :=
  if !capacityOK s opd.toNat then raise .bufOverflow (.str opd) 1 s
  else if !payloadPresent s opd.toNat then .next s
  else if !paddingZero (payloadAt s opd.toNat) opd.toNat then
    raise .padNonZero (.str opd) (1 + payloadWords opd.toNat) s
  else .next (emit (literal (payloadAt s opd.toNat) opd.toNat) (consume (1 + payloadWords opd.toNat) s))

end Sys2Proof.Machine
end

