-- ==== Sys2Proof/Machine/Hex.lean ====
section
/-!
DEFINITION. Hex rendering, the nibble-to-hex digit mapper (42_hex.md R110, R111).
-/

namespace Sys2Proof.Machine

/-- `nib(v, k) = v[4k+3 : 4k]` (R110). -/
def nib (v : Word32) (k : Nat) : Nibble := v.extractLsb' (4 * k) 4

/-- The greatest `k <= n` whose nibble is not zero, 0 if there is none. -/
def topNibble (v : Word32) : Nat → Nat
  | 0 => 0
  | n + 1 => if nib v (n + 1) ≠ 0 then n + 1 else topNibble v n

/-- `nhex(v)`, the number of hex digits (R110). -/
def nhex (v : Word32) : Nat := if v = 0 then 1 else 1 + topNibble v 7

/-- `hexstr(v)`, the hex rendering, most significant nibble first (R110). The pattern is unsigned (R111). -/
def hexstr (v : Word32) : List Byte :=
  (List.range (nhex v)).map (fun i => hexd (nib v (nhex v - 1 - i)))

/-- The rest of the source's scan (R110), from nibble `n - 1` down to nibble 0: `started` says that a non-zero nibble
has been met, so that a zero nibble is emitted. The last nibble is emitted in every case, which gives the single `0` of
the value 0. -/
def hexScanFrom (v : Word32) : Nat → Bool → List Byte
  | 0, _ => []
  | n + 1, started =>
    if started = true ∨ nib v n ≠ 0 ∨ n = 0 then hexd (nib v n) :: hexScanFrom v n true
    else hexScanFrom v n false

/-- The source's scan of the 8 nibbles, most significant first (R110). No command calls it: HEX and HEX2 are written
with `hexstr` (R112, R113), and R110 says that the two agree. -/
def hexScan (v : Word32) : List Byte := hexScanFrom v 8 false

end Sys2Proof.Machine
end

