-- ==== Sys2Proof/Machine/HexFormat.lean ====
section
/-!
DEFINITION. The hex formatters: HEX and HEX2 (42_hex.md R112, R113). They read only the hex-digit ROM (R115).
-/

namespace Sys2Proof.Machine

/-- The common end of HEX and HEX2 (R112, R113): `hexstr(v)` at the cursor, `nhex(v)` in RES. -/
def emitHex (v : Word32) (s : State) : State := setRes (nhex v) (emit (hexstr v) s)

/-- HEX (R112): 8 bytes of capacity required. -/
def execHex (opd : Word32) (s : State) : Host.Outcome State Fault Refusal :=
  if !capacityOK s 8 then raise .bufOverflow (.hex opd) 1 s
  else .next (emitHex opd (consume 1 s))

/-- HEX2 (R113): the semantics of HEX under its own opcode (92_eei_decisions.md D26). -/
def execHex2 (opd : Word32) (s : State) : Host.Outcome State Fault Refusal :=
  if !capacityOK s 8 then raise .bufOverflow (.hex2 opd) 1 s
  else .next (emitHex opd (consume 1 s))

end Sys2Proof.Machine
end

