-- ==== Sys2Proof/Machine/TableInit.lean ====
section
/-!
DEFINITION. The table builder: INIT (40_table_init.md R80, R82).
-/

namespace Sys2Proof.Machine

/-- INIT (R80). A repeated INIT is legal and writes the same values (R82). -/
def execInit (opd : Word32) (s : State) : Host.Outcome State Fault Refusal :=
  if opd ≠ 0 then raise .reservedBits (.init opd) 1 s
  else .next { consume 1 s with table := buildTable s.table, initDone := true }

end Sys2Proof.Machine
end

