-- ==== Sys2Proof/Machine/Dispatch.lean ====
section
/-! DEFINITION. The meaning of every command, one arm per row of the opcode table (30_encoding.md R66). -/

namespace Sys2Proof.Machine

def exec (i : Instr) (s : State) : Host.Outcome State Fault Refusal :=
  match i with
  | .init opd => Sys2Proof.Machine.execInit opd s
  | .char opd => Sys2Proof.Machine.execChar opd s
  | .u8 opd => Sys2Proof.Machine.execU8 opd s
  | .u16 opd => Sys2Proof.Machine.execU16 opd s
  | .str opd => Sys2Proof.Machine.execStr opd s
  | .hex opd => Sys2Proof.Machine.execHex opd s
  | .hex2 opd => Sys2Proof.Machine.execHex2 opd s
  | .setcur opd => Sys2Proof.Machine.execSetcur opd s

end Sys2Proof.Machine
end

