-- ==== Sys2Proof/Machine/Fetch.lean ====
section
/-!
DEFINITION. What the command port does next (10_state.md R28; 30_encoding.md R66; 60_exceptions.md R134;
70_reset_and_hazards.md R151, R161).
-/

namespace Sys2Proof.Machine

/-- What the block finds at its command port. -/
inductive Fetched where
  /-- The block is halted, or no word has been delivered: it takes nothing. -/
  | nothing
  /-- The next word is illegal: it faults with `f`, its word recorded. -/
  | illegal (f : FaultCause) (w : Word64)
  /-- The next word is the command word of `i`. -/
  | command (i : Instr)
  deriving DecidableEq, Repr

/-- The fault of an illegal word (30_encoding.md R65, R66). -/
def decodeFault : DecodeError → FaultCause
  | .badOpcode => .badOpcode
  | .reservedBits => .reservedBits

/-- Look at the next word of the stream. A halted block takes no word (R134). -/
def fetch (s : State) : Fetched :=
  if faulted s then .nothing
  else match s.port with
    | [] => .nothing
    | w :: _ => match decode w with
      | .ok i => .command i
      | .error e => .illegal (decodeFault e) w

/-- The block has a step (R161): it is not halted, and the stream holds a complete next command. A STR that fails its
capacity check needs its command word only. DEDUCED (entry 14, unsafe): an illegal word needs that word only, a word with
the opcode of STR and RSV != 0 included, because the decode faults before STR runs (30_encoding.md R66); R161 says
nothing of it. -/
def hasStep (s : State) : Bool :=
  match fetch s with
  | .nothing => false
  | .illegal _ _ => true
  | .command (.str opd) => !capacityOK s opd.toNat || payloadPresent s opd.toNat
  | .command _ => true

/-- The block is idle (20_memory.md R51): the stream holds no next complete command, or the block is halted. A block
that has a step is not idle, also where the step is a fault taken before a STR's payload is there (DEDUCED, entry 7,
safe). -/
def idle (s : State) : Bool := !hasStep s

end Sys2Proof.Machine
end

