-- ==== Sys2Proof/Machine/Step.lean ====
section
/-!
DEFINITION. One step of the block: one complete command (00_scope.md R13; 70_reset_and_hazards.md R160).
-/

namespace Sys2Proof.Machine

/-- One step. Where the block has no step (it is halted, or it waits for words), the state does not change: idling
(R144, R161; entry 4). An illegal word takes its fault (30_encoding.md R65). A legal one runs its command, which
consumes its own words. -/
def step (s : State) : Host.Outcome State Fault Refusal :=
  match fetch s with
  | .nothing => .next s
  | .illegal f w => .next (takeFault f w 1 s)
  | .command i => Sys2Proof.Machine.exec i s

/-- `s` with the words of one instruction delivered in front of everything else on the command port, so that a block
that is not halted runs it in its next step. It stands for the host delivering those words (entry 6). -/
def State.withFetchWord (s : State) (nbits w : Nat) : State := { s with port := portWords nbits w ++ s.port }

end Sys2Proof.Machine
end

