-- ==== Sys2Proof/Machine/Assembler.lean ====
section
/-!
DEFINITION. The assembler's textual form and its words (30_encoding.md R68, R69). A line is a list of characters.
The lexical details that R68 leaves open are in entry 11.
-/

namespace Sys2Proof.Machine

/-- One command line of R68. A number is any integer here; `assemble` checks that it fits its field. -/
inductive AsmLine where
  | init
  /-- `CHAR '<d>'` with the character code of `<d>`. -/
  | charLiteral (code : Nat)
  | char (n : Int)
  | u8 (n : Int)
  | u16 (n : Int)
  | str (text : List Byte)
  | hex (n : Int)
  | hex2 (n : Int)
  | setcur (n : Int)
  deriving DecidableEq, Repr

/-- Why a line does not assemble. -/
inductive AsmError where
  /-- The line is not of a form of R68. -/
  | badLine
  /-- An operand does not fit its field (R68). -/
  | operandTooWide
  deriving DecidableEq, Repr

/-- Word `j` of the payload of a literal: bytes `8j .. 8j+7`, the first in the lowest bits, bytes past the end of the
literal 0 (R63, R69). -/
def packWord (text : List Byte) (j : Nat) : Word64 :=
  text.getD (8 * j + 7) 0 ++ text.getD (8 * j + 6) 0 ++ text.getD (8 * j + 5) 0 ++ text.getD (8 * j + 4) 0 ++
    text.getD (8 * j + 3) 0 ++ text.getD (8 * j + 2) 0 ++ text.getD (8 * j + 1) 0 ++ text.getD (8 * j) 0

/-- The payload words of a literal (R63, R69). -/
def packPayload (text : List Byte) : List Word64 := (List.range (payloadWords text.length)).map (packWord text)

/-- The operand of an unsigned number below `bound`. -/
def unsignedOperand (bound : Int) (n : Int) : Except AsmError Word32 :=
  if 0 ≤ n ∧ n < bound then .ok (BitVec.ofInt 32 n) else .error .operandTooWide

/-- The operand of HEX and HEX2: `0 .. 2^32-1`, or `-2^31 .. -1` for its two's-complement pattern. R68 gives this range
on the HEX line; that HEX2 takes the same one is a DESIGN CHOICE (entry 11, unsafe). -/
def hexOperand (n : Int) : Except AsmError Word32 :=
  if -2147483648 ≤ n ∧ n < 4294967296 then .ok (BitVec.ofInt 32 n) else .error .operandTooWide

/-- The words of a command without payload. -/
def oneWord (mk : Word32 → Instr) (operand : Except AsmError Word32) : Except AsmError (List Word64) :=
  match operand with
  | .ok opd => .ok [encode (mk opd)]
  | .error e => .error e

/-- The words of one line (R68, R69). `CHAR <n>` assembles for every code `0 .. 255`. -/
def assemble : AsmLine → Except AsmError (List Word64)
  | .init => .ok [encode (.init 0)]
  | .charLiteral code =>
    if 0x30 ≤ code ∧ code ≤ 0x39 then .ok [encode (.char (BitVec.ofNat 32 code))] else .error .badLine
  | .char n => oneWord .char (unsignedOperand 256 n)
  | .u8 n => oneWord .u8 (unsignedOperand 256 n)
  | .u16 n => oneWord .u16 (unsignedOperand 65536 n)
  | .str text =>
    if text.length < 4294967296 then .ok (encode (.str (BitVec.ofNat 32 text.length)) :: packPayload text)
    else .error .operandTooWide
  | .hex n => oneWord .hex (hexOperand n)
  | .hex2 n => oneWord .hex2 (hexOperand n)
  | .setcur n => oneWord .setcur (unsignedOperand 4294967296 n)

/-! ### Reading a line -/

/-- A blank of a line. -/
def isBlank (c : Char) : Bool := c == ' ' || c == '\t'

/-- The line without its leading blanks. -/
def skipBlanks : List Char → List Char
  | [] => []
  | c :: cs => if isBlank c then skipBlanks cs else c :: cs

/-- Nothing but blanks and a comment follows; `;` starts a comment (R68). -/
def atEnd (cs : List Char) : Bool :=
  match skipBlanks cs with
  | [] => true
  | c :: _ => c == ';'

/-- A leading word, up to a blank or a comment, and what follows it. -/
def takeWord : List Char → List Char × List Char
  | [] => ([], [])
  | c :: cs =>
    if isBlank c || c == ';' then ([], c :: cs)
    else (c :: (takeWord cs).1, (takeWord cs).2)

/-- The value of a hexadecimal digit. -/
def hexDigitValue (c : Char) : Option Nat :=
  if 48 ≤ c.toNat ∧ c.toNat ≤ 57 then some (c.toNat - 48)
  else if 97 ≤ c.toNat ∧ c.toNat ≤ 102 then some (c.toNat - 87)
  else if 65 ≤ c.toNat ∧ c.toNat ≤ 70 then some (c.toNat - 55)
  else none

/-- The digits of a number to base `base`, most significant first, after `acc`. -/
def digitsFrom (base : Nat) : Nat → List Char → Option Nat
  | acc, [] => some acc
  | acc, c :: cs =>
    match hexDigitValue c with
    | some d => if d < base then digitsFrom base (base * acc + d) cs else none
    | none => none

/-- A natural number, decimal or `0x` hexadecimal (R68). -/
def readNat : List Char → Option Nat
  | [] => none
  | '0' :: 'x' :: c :: cs => digitsFrom 16 0 (c :: cs)
  | c :: cs => digitsFrom 10 0 (c :: cs)

/-- A number with an optional minus sign (R68). -/
def readInt : List Char → Option Int
  | '-' :: cs => (readNat cs).map (fun n => -(n : Int))
  | cs => (readNat cs).map (fun n => (n : Int))

/-- The bytes of a quoted text after its opening quote, and what follows its closing quote (R68). That a `;` inside the
quotes is a byte of the text and starts no comment is a DESIGN CHOICE (entry 11, unsafe). -/
def readText : List Char → Option (List Byte × List Char)
  | [] => none
  | '"' :: cs => some ([], cs)
  | '\\' :: '"' :: cs => (readText cs).map (fun r => (0x22 :: r.1, r.2))
  | '\\' :: '\\' :: cs => (readText cs).map (fun r => (0x5C :: r.1, r.2))
  | '\\' :: 'x' :: a :: b :: cs =>
    match hexDigitValue a, hexDigitValue b with
    | some h, some l => (readText cs).map (fun r => (BitVec.ofNat 8 (16 * h + l) :: r.1, r.2))
    | _, _ => none
  | '\\' :: _ => none
  | c :: cs =>
    if c.toNat < 128 then (readText cs).map (fun r => (BitVec.ofNat 8 c.toNat :: r.1, r.2)) else none

/-- A line whose operand is one number. -/
def numberLine (mk : Int → AsmLine) (cs : List Char) : Except AsmError AsmLine :=
  match readInt (takeWord (skipBlanks cs)).1 with
  | some n => if atEnd (takeWord (skipBlanks cs)).2 then .ok (mk n) else .error .badLine
  | none => .error .badLine

/-- The operand of CHAR: a quoted character, or a number. -/
def charLine (cs : List Char) : Except AsmError AsmLine :=
  match skipBlanks cs with
  | '\'' :: d :: '\'' :: rest => if atEnd rest then .ok (.charLiteral d.toNat) else .error .badLine
  | _ => numberLine .char cs

/-- The operand of STR: a quoted text. -/
def strLine (cs : List Char) : Except AsmError AsmLine :=
  match skipBlanks cs with
  | '"' :: rest =>
    match readText rest with
    | some (text, tail) => if atEnd tail then .ok (.str text) else .error .badLine
    | none => .error .badLine
  | _ => .error .badLine

/-- One line of text; none for a line that holds no command (R68). -/
def parseLine (cs : List Char) : Except AsmError (Option AsmLine) :=
  if atEnd cs then .ok none
  else
    let word := takeWord (skipBlanks cs)
    match word.1 with
    | ['I', 'N', 'I', 'T'] => if atEnd word.2 then .ok (some .init) else .error .badLine
    | ['C', 'H', 'A', 'R'] => (charLine word.2).map some
    | ['U', '8'] => (numberLine .u8 word.2).map some
    | ['U', '1', '6'] => (numberLine .u16 word.2).map some
    | ['S', 'T', 'R'] => (strLine word.2).map some
    | ['H', 'E', 'X'] => (numberLine .hex word.2).map some
    | ['H', 'E', 'X', '2'] => (numberLine .hex2 word.2).map some
    | ['S', 'E', 'T', 'C', 'U', 'R'] => (numberLine .setcur word.2).map some
    | _ => .error .badLine

/-- The words of one line of text: none for a line that holds no command (R68, R69). -/
def assembleText (cs : List Char) : Except AsmError (List Word64) :=
  match parseLine cs with
  | .ok none => .ok []
  | .ok (some line) => assemble line
  | .error e => .error e

/-- The words of a program, one command a line (R68). -/
def assembleProgram : List (List Char) → Except AsmError (List Word64)
  | [] => .ok []
  | cs :: rest =>
    match assembleText cs, assembleProgram rest with
    | .ok ws, .ok more => .ok (ws ++ more)
    | .error e, _ => .error e
    | _, .error e => .error e

end Sys2Proof.Machine
end

