-- ==== Sys2Proof/Machine/HostPort.lean ====
section
/-!
DEFINITION. The host's interactions with the block (20_memory.md R51, R52; 10_state.md R32) and the whole system, in
which host actions are interleaved between the block's steps (70_reset_and_hazards.md R160; entry 12).
-/

namespace Sys2Proof.Machine

/-- What the host can do (20_memory.md R52). -/
inductive HostAction where
  /-- Deliver one 64-bit word to the command port: a command word or a payload word of a STR. -/
  | deliver (w : Word64)
  /-- Read a register by its index (10_state.md R32). -/
  | readRegister (index : Nat)
  /-- Read one byte of BUF, while the block is idle (R51). -/
  | readBuf (a : Nat)
  /-- Write one byte of BUF, while the block is idle (R51). -/
  | writeBuf (a : Nat) (b : Byte)
  /-- Assert reset (70_reset_and_hazards.md R150). -/
  | reset
  deriving DecidableEq, Repr

/-- What the block gives back (20_memory.md R52). -/
inductive HostReply where
  | nothing
  | register (v : Word32)
  | byte (b : Byte)
  deriving DecidableEq, Repr

/-- The register read port (10_state.md R32): an index without a register reads as 0. -/
def readRegister (s : State) (index : Nat) : Word32 :=
  match index with
  | 0x0 => statusWord s
  | 0x1 => s.cur
  | 0x2 => s.res
  | 0x3 => s.fcmd.extractLsb' 0 32
  | 0x4 => s.fcmd.extractLsb' 32 32
  | _ => 0

/-- The host delivers a word behind the words it has delivered before (10_state.md R28). -/
def deliver (w : Word64) (s : State) : State := { s with port := s.port ++ [w] }

/-- The host writes one byte of BUF; nothing else changes (20_memory.md R51). -/
def hostWrite (a : Nat) (b : Byte) (s : State) : State := { s with buf := writeByte s.buf a b }

/-- Why the host may not access address `a` of BUF now, none where it may. It may touch BUF only at addresses
`0 .. BUF_SIZE-1` (R52; entry 8) and only while the block is idle (R51, R52; entry 7). -/
def hostBufFault (s : State) (a : Nat) : Option Fault :=
  if s.bufSize.val ≤ a then some (.hostAddressOutsideBuf a)
  else if idle s then none
  else some (.hostAccessNotIdle a)

/-- One host action. Registers and reset are open to the host in every state. An access to BUF that R51 and R52 do not
give the host has no step in the spec: it ends in a fault of the model. -/
def hostStep (h : HostAction) (s : State) : Host.Outcome (State × HostReply) Fault Refusal :=
  match h with
  | .deliver w => .next (deliver w s, .nothing)
  | .readRegister index => .next (s, .register (readRegister s index))
  | .readBuf a =>
    match hostBufFault s a with
    | none => .next (s, .byte (bufByte s.buf a))
    | some f => .fault f
  | .writeBuf a b =>
    match hostBufFault s a with
    | none => .next (hostWrite a b s, .nothing)
    | some f => .fault f
  | .reset => .next (resetBlock s, .nothing)

/-- Who acts next: the block, or the host with one action. -/
inductive Event where
  | block
  | host (h : HostAction)
  deriving DecidableEq, Repr

/-- One event of the whole system. -/
def systemStep (e : Event) (s : State) : Host.Outcome (State × HostReply) Fault Refusal :=
  match e with
  | .block =>
    match step s with
    | .next t => .next (t, .nothing)
    | .fault r => .fault r
    | .refused r => .refused r
  | .host h => hostStep h s

end Sys2Proof.Machine
end

