-- ==== Sys2Proof/Safety.lean ====
section
/-!
DEFINITION. The terms claims use: the state invariant, the record of a fault, the end of a run, its observation, and
the readings of text as numbers.
-/

namespace Sys2Proof.Safety

open Sys2Proof.Machine

/-- What the spec says of every state: BUF_SIZE in its range (00_scope.md R10), BUF in canonical form and within its
size (10_state.md R27), `CUR <= BUF_SIZE` (R24), a legal FCAUSE (R21), a populated table whenever INIT_DONE is 1 (R22),
FCMD 0 before the first fault (R26), and RES a length a command can return (R25). -/
structure StateInv (s : State) : Prop where
  bufSize_pos : 1 ≤ s.bufSize.val
  buf_wf : s.buf.wf
  buf_inside : ∀ c ∈ s.buf.cells, c.1 < s.bufSize.val
  cur_le : s.cur.toNat ≤ s.bufSize.val
  fcause_legal : s.fcause.toNat ≤ 8
  table_built : s.initDone = true → s.table.built = true
  fcmd_clear : s.fcause = 0 → s.fcmd = 0
  res_le : s.res.toNat ≤ 8

/-- The causes that a command word can be refused with, by its opcode (60_exceptions.md R132). -/
def possibleCauses (w : Word64) : List Nat :=
  match (opcField w).toNat with
  | 0x01 => [2]
  | 0x02 => [2, 3, 4, 6]
  | 0x03 => [2, 3, 5, 6]
  | 0x04 => [2, 3, 5, 6]
  | 0x05 => [2, 6, 8]
  | 0x06 => [2, 6]
  | 0x07 => [2, 6]
  | 0x08 => [2, 7]
  | _ => [1]

/-- FCAUSE is a cause that the command word in FCMD can have (R132). -/
def faultRecordOk (s : State) : Prop :=
  s.fcause.toNat = 0 ∨ s.fcause.toNat ∈ possibleCauses s.fcmd

/-- A run that has ended well (70_reset_and_hazards.md R162): every word was consumed and the block is not halted. -/
def runCompleted (s : State) : Prop := s.port = [] ∧ faulted s = false

/-- A run that has ended badly (R162): the block is halted, or waits on a STR whose payload does not come. -/
def runFailed (s : State) : Prop :=
  faulted s = true ∨
    (faulted s = false ∧ ∃ w rest opd, s.port = w :: rest ∧ decode w = .ok (.str opd) ∧ hasStep s = false)

/-- What a completed run observes (R162): BUF (its written bytes), CUR, RES and STATUS. -/
structure Observation where
  buf : Memory
  cur : Word32
  res : Word32
  status : Word32
  deriving DecidableEq, Repr

/-- The observation of a completed run (R162). -/
def observe (s : State) : Observation := ⟨s.buf, s.cur, s.res, statusWord s⟩

/-- Byte `a` of a buffer after the bytes `out` were written from `start`, where it held `old` before (20_memory.md
R45). -/
def overlay (start : Nat) (out : List Byte) (old : Option Byte) (a : Nat) : Option Byte :=
  if start ≤ a ∧ a < start + out.length then out[a - start]? else old

/-- A conversion as the host delivers it: its command, and for a STR its payload words (30_encoding.md R63). -/
structure Conversion where
  instr : Instr
  payload : List Word64
  deriving DecidableEq, Repr

/-- The words of a conversion on the command stream (30_encoding.md R63). -/
def Conversion.words (c : Conversion) : List Word64 := encode c.instr :: c.payload

/-- The text that a conversion writes (41_decimal.md R91 to R94; 42_hex.md R112, R113); empty for INIT and SETCUR. -/
def Conversion.text (c : Conversion) : List Byte :=
  match c.instr with
  | .init _ => []
  | .char opd => [opd8 opd]
  | .u8 opd => dec opd.toNat
  | .u16 opd => dec opd.toNat
  | .str opd => literal c.payload opd.toNat
  | .hex opd => hexstr opd
  | .hex2 opd => hexstr opd
  | .setcur _ => []

/-- The least room that a command asks for (20_memory.md R44); INIT and SETCUR ask for none. -/
def minSize : Instr → Nat
  | .init _ => 0
  | .char _ => 1
  | .u8 _ => 3
  | .u16 _ => 5
  | .str opd => opd.toNat
  | .hex _ => 8
  | .hex2 _ => 8
  | .setcur _ => 0

/-- A conversion whose operand, payload and need of a populated table its rule accepts (41_decimal.md R91 to R94;
42_hex.md R112, R113), where `ready` is STATUS.INIT_DONE. INIT and SETCUR are no conversions. -/
def Conversion.accepted (ready : Bool) (c : Conversion) : Prop :=
  match c.instr with
  | .init _ => False
  | .char opd => c.payload = [] ∧ 0x30 ≤ opd.toNat ∧ opd.toNat ≤ 0x39
  | .u8 opd => c.payload = [] ∧ opd.toNat < 256 ∧ ready = true
  | .u16 opd => c.payload = [] ∧ opd.toNat < 65536 ∧ ready = true
  | .str opd => c.payload.length = (opd.toNat + 7) / 8 ∧
      ∀ k, opd.toNat ≤ k → k < 8 * c.payload.length → payloadByte c.payload k = 0
  | .hex _ => c.payload = []
  | .hex2 _ => c.payload = []
  | .setcur _ => False

/-- Every conversion of a sequence that begins at the cursor `cur` passes its capacity check, each where the ones before
it leave the cursor (20_memory.md R44). -/
def roomFor (size : Nat) : Nat → List Conversion → Prop
  | _, [] => True
  | cur, c :: cs => cur + minSize c.instr ≤ size ∧ roomFor size (cur + c.text.length) cs

/-- The number that decimal text denotes, after `acc`; none if a byte is not a decimal digit (41_decimal.md R96). -/
def parseDecFrom : Nat → List Byte → Option Nat
  | acc, [] => some acc
  | acc, b :: bs =>
    if 0x30 ≤ b.toNat ∧ b.toNat ≤ 0x39 then parseDecFrom (10 * acc + (b.toNat - 0x30)) bs else none

/-- The number that lowercase hex text denotes, after `acc`; none if a byte is not a digit of HEXD. -/
def parseHexFrom : Nat → List Byte → Option Nat
  | acc, [] => some acc
  | acc, b :: bs =>
    if 0x30 ≤ b.toNat ∧ b.toNat ≤ 0x39 then parseHexFrom (16 * acc + (b.toNat - 0x30)) bs
    else if 0x61 ≤ b.toNat ∧ b.toNat ≤ 0x66 then parseHexFrom (16 * acc + (b.toNat - 0x57)) bs
    else none

/-- The contents of the digit table as the pseudocode of INIT sees them: the length and the text of every entry. -/
structure TableContents where
  len : Nat → Nat
  text : Nat → Nat → Byte

/-- `TBL_LEN[v] <- ndec(v)`, then `TBL_TEXT[v][i] <- dec(v)[i]` for `i` in `0 .. ndec(v)-1` (40_table_init.md R80): one
round of the outer loop of INIT. -/
def initRound (c : TableContents) (v : Nat) : TableContents :=
  { len := fun x => if x = v then ndec v else c.len x
    text := (List.range (ndec v)).foldl
      (fun text i => fun x j => if x = v ∧ j = i then decDigit v i else text x j) c.text }

/-- The outer loop of INIT over `v` in `0 .. 65535` (R80). -/
def initLoop (c : TableContents) : TableContents := (List.range 65536).foldl initRound c

/-- The contents that a table of the model stands for. -/
def contentsOf (t : DigitTable) : TableContents :=
  { len := fun v => (tblLen t (BitVec.ofNat 16 v)).toNat
    text := fun v i => tblText t (BitVec.ofNat 16 v) i }

end Sys2Proof.Safety
end

