-- ==== Sys2Proof/Certificates/Slice0/Obligations.lean ====
section
/-!
DEFINITION. The statements for the provers. They are written with the numbers of the spec (opcodes, cause codes, minimum
sizes, register indices), so that they do not repeat the model's own tables. A record `s with …` is the frame: every
field that it does not name is unchanged.
-/

open Sys2Proof Sys2Proof.Machine Sys2Proof.Safety

/-! ### Encoding -/

/-- Decoding the word of a command gives the command back, every operand bit kept (30_encoding.md R60 to R62, R66). -/
def Obligations.DecodeOfEncodeIsTheCommand : Prop :=
  ∀ i : Instr, decode (encode i) = .ok i

/-- A legal command word is the encoding of the command that it decodes to: each word has one meaning, and FCMD, which
receives the encoding, receives the word (30_encoding.md R60, R65; 10_state.md R26). -/
def Obligations.EncodeOfDecodeIsTheWord : Prop :=
  ∀ (w : Word64) (i : Instr), decode w = .ok i → encode i = w

/-- The opcode map: which command `OPC = w[63:56]` selects when RSV is 0, and that no other opcode selects one
(30_encoding.md R61). -/
def Obligations.OpcodeMapSelectsTheCommand : Prop :=
  ∀ w : Word64, (w.toNat / 2 ^ 32) % 2 ^ 24 = 0 →
    let opc := w.toNat / 2 ^ 56
    let opd := BitVec.ofNat 32 w.toNat
    (opc = 0x01 → decode w = .ok (.init opd)) ∧ (opc = 0x02 → decode w = .ok (.char opd)) ∧
    (opc = 0x03 → decode w = .ok (.u8 opd)) ∧ (opc = 0x04 → decode w = .ok (.u16 opd)) ∧
    (opc = 0x05 → decode w = .ok (.str opd)) ∧ (opc = 0x06 → decode w = .ok (.hex opd)) ∧
    (opc = 0x07 → decode w = .ok (.hex2 opd)) ∧ (opc = 0x08 → decode w = .ok (.setcur opd)) ∧
    (opc = 0x00 ∨ 0x09 ≤ opc → decode w = .error .badOpcode)

/-- The eleven command words of the spec's examples decode to the commands they stand for (30_encoding.md R70). -/
def Obligations.ExampleWordsDecode : Prop :=
  decode 0x0100000000000000 = .ok (.init 0) ∧ decode 0x0200000000000037 = .ok (.char 0x37) ∧
  decode 0x03000000000000FF = .ok (.u8 255) ∧ decode 0x040000000000FFFF = .ok (.u16 65535) ∧
  decode 0x0500000000000005 = .ok (.str 5) ∧ decode 0x0500000000000000 = .ok (.str 0) ∧
  decode 0x0500000000000009 = .ok (.str 9) ∧ decode 0x060000007FFFFFFF = .ok (.hex 2147483647) ∧
  decode 0x06000000FFFFFFFF = .ok (.hex 4294967295) ∧ decode 0x0700000000000000 = .ok (.hex2 0) ∧
  decode 0x0800000000000010 = .ok (.setcur 16)

/-- A command whose must-be-zero operand bits are not 0 takes the fault that R62 names: ReservedBits for INIT,
OperandRange for the others (30_encoding.md R62). -/
def Obligations.IllFormedOperandsFault : Prop :=
  ∀ (i : Instr) (s : State), i.wf = false →
    ∃ c : Byte, (c = 2 ∨ c = 3) ∧ (c = 2 ↔ ∃ opd, i = .init opd) ∧
      exec i s = .next { s with fcause := c, fcmd := encode i, port := s.port.drop 1, pos := s.pos + 1 }

/-! ### The step -/

/-- A block that is not halted runs the command that its next word decodes to; the command consumes its own words
(30_encoding.md R66). -/
def Obligations.StepRunsTheDecodedCommand : Prop :=
  ∀ (s : State) (w : Word64) (rest : List Word64) (i : Instr),
    s.fcause = 0 → s.port = w :: rest → decode w = .ok i → step s = exec i s

/-- An illegal word faults: BadOpcode for a reserved opcode, ReservedBits for a legal one with a non-zero RSV; FCMD
records the word and the block takes just that word (30_encoding.md R65). That a word with the opcode of STR and a
non-zero RSV does so without waiting for payload words is the model's reading (entry 14). -/
def Obligations.IllegalWordsFault : Prop :=
  ∀ (s : State) (w : Word64) (rest : List Word64), s.fcause = 0 → s.port = w :: rest →
    let opc := w.toNat / 2 ^ 56
    (opc = 0x00 ∨ 0x09 ≤ opc →
      step s = .next { s with fcause := 1, fcmd := w, port := rest, pos := s.pos + 1 }) ∧
    (0x01 ≤ opc → opc ≤ 0x08 → (w.toNat / 2 ^ 32) % 2 ^ 24 ≠ 0 →
      step s = .next { s with fcause := 2, fcmd := w, port := rest, pos := s.pos + 1 })

/-- A halted block takes no word, however often it is stepped; the host may read registers and access BUF; of the host's
actions only reset leaves the halt; a halted block is a failed run, never a completed one (60_exceptions.md R134; that
a halted block answers its own unchanged state is the model's choice, entry 4). -/
def Obligations.HaltedBlockTakesNoWords : Prop :=
  ∀ s : State, s.fcause ≠ 0 →
    (∀ k, Host.Core.run Sys2Proof.core k s = .next s) ∧
    (∀ index, ∃ v, hostStep (.readRegister index) s = .next (s, .register v)) ∧
    (∀ a b, a < s.bufSize.val → (∃ c, hostStep (.readBuf a) s = .next (s, .byte c)) ∧
      ∃ m, hostStep (.writeBuf a b) s = .next ({ s with buf := m }, .nothing)) ∧
    (∀ h t r, hostStep h s = .next (t, r) → t.fcause = 0 → h = .reset) ∧
    (∀ t r, hostStep .reset s = .next (t, r) → t.fcause = 0) ∧
    ¬ runCompleted s ∧ runFailed s

/-- Waiting: with no word, or with a STR that fits but whose payload is not all there, the block does not change, and
does not fault (that a wait is an unchanged next state is the model's choice, entry 4). In every other case in which it
is not halted it takes at least its command word; a STR that fails its capacity check does not wait for its payload
(70_reset_and_hazards.md R161), and no illegal word waits (for the opcode of STR the model's reading, entry 14). -/
def Obligations.WaitingBlockDoesNotChange : Prop :=
  ∀ s : State, s.fcause = 0 →
    (s.port = [] → step s = .next s) ∧
    (∀ (w : Word64) (rest : List Word64), s.port = w :: rest →
      (∀ opd, decode w = .ok (.str opd) → s.cur.toNat + opd.toNat ≤ s.bufSize.val →
        rest.length < (opd.toNat + 7) / 8 → step s = .next s) ∧
      ((∀ opd, decode w = .ok (.str opd) →
          s.bufSize.val < s.cur.toNat + opd.toNat ∨ (opd.toNat + 7) / 8 ≤ rest.length) →
        ∃ t, step s = .next t ∧ s.pos < t.pos))

/-- Every step answers a next state: no fault or refusal of the model is ever reached by the block. In a waiting or halted
block, where the spec has no step (60_exceptions.md R134; 70_reset_and_hazards.md R161), that answer is the model's
choice of entry 4. The stream only loses words from its front, each counted once by the position, and BUF_SIZE does not
change (10_state.md R28, R30). -/
def Obligations.EveryStepAnswersNext : Prop :=
  ∀ s : State, ∃ t n, step s = .next t ∧ n ≤ s.port.length ∧ t.port = s.port.drop n ∧ t.pos = s.pos + n ∧
    t.bufSize = s.bufSize

/-- A command that completes without a fault takes exactly its length in words: 1, or `1 + ceil(len / 8)` for STR
(30_encoding.md R67; 10_state.md R30). -/
def Obligations.CompletedCommandsTakeTheirLength : Prop :=
  ∀ (s t : State) (w : Word64) (rest : List Word64), s.fcause = 0 → s.port = w :: rest → hasStep s = true →
    step s = .next t → t.fcause = 0 →
    ∃ n, commandLength w = some n ∧ t.pos = s.pos + n ∧ t.port = s.port.drop n ∧
      (w.toNat / 2 ^ 56 ≠ 0x05 → n = 1) ∧ (w.toNat / 2 ^ 56 = 0x05 → n = 1 + (w.toNat % 2 ^ 32 + 7) / 8)

/-- Every run ends: as many steps as there are delivered words bring the block to a state without a step, which is a
completed or a failed end of the run (70_reset_and_hazards.md R162). A run that ends earlier fills up that number with
idle steps, which answer an unchanged next state by the model's choice of entry 4. -/
def Obligations.EveryRunEnds : Prop :=
  ∀ s : State, ∃ t n, Host.Core.run Sys2Proof.core s.port.length s = .next t ∧ hasStep t = false ∧
    t.port = s.port.drop n ∧ t.pos = s.pos + n ∧ (runCompleted t ∨ runFailed t)

/-- Words delivered behind a complete next command do not change what it does (20_memory.md R50; 10_state.md R28). -/
def Obligations.LaterWordsDoNotDisturbACommand : Prop :=
  ∀ (s t : State) (w : Word64), hasStep s = true → step s = .next t → step (deliver w s) = .next (deliver w t)

/-! ### Faults -/

/-- Fault entry is precise: a step that faults changes FCAUSE, FCMD and the stream position only. FCMD receives the
command word; the position passes the command word, and for PadNonZero also the payload words (60_exceptions.md
R133). -/
def Obligations.FaultEntryIsPrecise : Prop :=
  ∀ s t : State, s.fcause = 0 → step s = .next t → t.fcause ≠ 0 →
    ∃ w rest n, s.port = w :: rest ∧ t.fcause.toNat ∈ possibleCauses w ∧
      t = { s with fcause := t.fcause, fcmd := w, port := s.port.drop n, pos := s.pos + n } ∧
      (t.fcause ≠ 8 → n = 1) ∧ (t.fcause = 8 → n = 1 + (w.toNat % 2 ^ 32 + 7) / 8)

/-- Every event of the system, a step or a host action, keeps the fault record consistent: the cause in FCAUSE is one
that the command word in FCMD can have (60_exceptions.md R132). -/
def Obligations.FaultRecordStaysConsistent : Prop :=
  ∀ (e : Event) (s t : State) (r : HostReply),
    faultRecordOk s → systemStep e s = .next (t, r) → faultRecordOk t

/-- The first fault since reset is kept: no event but reset changes FCAUSE or FCMD of a halted block
(60_exceptions.md R135, R137; 10_state.md R26). The block's own event in a halt is the idle step of entry 4. -/
def Obligations.FirstFaultIsKept : Prop :=
  ∀ (e : Event) (s t : State) (r : HostReply), s.fcause ≠ 0 → e ≠ .host .reset →
    systemStep e s = .next (t, r) → t.fcause = s.fcause ∧ t.fcmd = s.fcmd ∧ t.cur = s.cur ∧ t.res = s.res ∧
      t.initDone = s.initDone ∧ t.table = s.table ∧ t.pos = s.pos

/-! ### Invariants -/

/-- Every step keeps the state invariant. -/
def Obligations.StepKeepsTheInvariant : Prop :=
  ∀ s t : State, StateInv s → step s = .next t → StateInv t

/-- Every host action that the model answers with a next state keeps the state invariant. The host's access to BUF is
limited to an idle block and to the addresses of BUF (20_memory.md R51, R52), where the model's stops are its own
(entries 7 and 8); what reset drops is entry 5. -/
def Obligations.HostActionsKeepTheInvariant : Prop :=
  ∀ (h : HostAction) (s t : State) (r : HostReply), StateInv s → hostStep h s = .next (t, r) → StateInv t

/-- The state after power-up has the invariant, for every BUF_SIZE of R10, every contents of BUF and every free
contents of the table; so has `State.reset`, whose BUF_SIZE is the model's choice (entry 1). -/
def Obligations.PowerUpHasTheInvariant : Prop :=
  (∀ (n : BufSize) (m : Memory) (seed : Nat), 1 ≤ n.val → m.wf → (∀ c ∈ m.cells, c.1 < n.val) →
    StateInv (State.powerUp n m seed)) ∧ StateInv State.reset

/-- A step writes BUF only from the old CUR up to the new CUR (20_memory.md R45). -/
def Obligations.StepWritesOnlyAtTheCursor : Prop :=
  ∀ s t : State, StateInv s → step s = .next t →
    ∀ a, a < s.cur.toNat ∨ t.cur.toNat ≤ a → readByte t.buf a = readByte s.buf a

/-- The access matrix: which commands write which state (10_state.md R33, R25). -/
def Obligations.AccessMatrix : Prop :=
  ∀ (i : Instr) (s t : State), exec i s = .next t →
    t.bufSize = s.bufSize ∧
    ((∀ opd, i ≠ .init opd) → t.table = s.table ∧ t.initDone = s.initDone) ∧
    ((∃ opd, i = .init opd) → t.cur = s.cur ∧ t.res = s.res ∧ t.buf = s.buf) ∧
    ((∃ opd, i = .setcur opd) → t.res = s.res ∧ t.buf = s.buf) ∧
    ((∃ opd, i = .char opd ∨ i = .str opd) → t.res = s.res)

/-- INIT_DONE is set by a completed INIT and by nothing else, and only reset clears it (10_state.md R34, R21). -/
def Obligations.OnlyInitSetsInitDone : Prop :=
  ∀ (e : Event) (s t : State) (r : HostReply), systemStep e s = .next (t, r) →
    (s.initDone = false → t.initDone = true →
      e = .block ∧ ∃ rest, s.port = 0x0100000000000000 :: rest) ∧
    (s.initDone = true → t.initDone = false → e = .host .reset)

/-- The block never reads BUF: with another contents of BUF it makes the same step, and every byte of BUF is afterwards
either the byte the step wrote or what it was before (10_state.md R27; 20_memory.md R51). Idle steps, which answer next
by the model's choice of entry 4, are among them. -/
def Obligations.BlockNeverReadsBuf : Prop :=
  ∀ (s : State) (m : Memory), ∃ t n, step s = .next t ∧ step { s with buf := m } = .next { t with buf := n } ∧
    ∀ a, readByte n a = readByte t.buf a ∨
      (readByte n a = readByte m a ∧ readByte t.buf a = readByte s.buf a)

/-- The unspecified contents of the digit table are never seen: with other free contents the block makes the same step
(10_state.md R22, R31; 40_table_init.md R81). Idle steps, which answer next by the model's choice of entry 4, are among
them. -/
def Obligations.FreeTableContentsAreNeverRead : Prop :=
  ∀ (s : State) (seed : Nat), StateInv s → ∃ t, step s = .next t ∧
    step { s with table := { s.table with seed := seed } } = .next { t with table := { t.table with seed := seed } }

/-! ### INIT and the digit table -/

/-- INIT: ReservedBits when OPD is not 0; else every entry of the table is populated, INIT_DONE is set, and CUR, RES,
BUF are not changed (40_table_init.md R80, with the contents of R81). -/
def Obligations.InitPopulatesTheTable : Prop :=
  ∀ (s : State) (opd : Word32),
    decode (0x01#8 ++ 0#24 ++ opd) = .ok (.init opd) ∧
    (opd ≠ 0 → exec (.init opd) s = .next { s with
      fcause := 2, fcmd := 0x01#8 ++ 0#24 ++ opd, port := s.port.drop 1, pos := s.pos + 1 }) ∧
    (opd = 0 → ∃ tbl, exec (.init opd) s = .next { s with
        table := tbl, initDone := true, port := s.port.drop 1, pos := s.pos + 1 } ∧
      ∀ v : Word16,
        (v.toNat < 10 → (tblLen tbl v).toNat = 1) ∧
        (10 ≤ v.toNat → v.toNat < 100 → (tblLen tbl v).toNat = 2) ∧
        (100 ≤ v.toNat → v.toNat < 1000 → (tblLen tbl v).toNat = 3) ∧
        (1000 ≤ v.toNat → v.toNat < 10000 → (tblLen tbl v).toNat = 4) ∧
        (10000 ≤ v.toNat → (tblLen tbl v).toNat = 5) ∧
        ∀ i, i < (tblLen tbl v).toNat → tblText tbl v i =
          BitVec.ofNat 8 (0x30 + (v.toNat / 10 ^ ((tblLen tbl v).toNat - 1 - i)) % 10))

/-- A repeated INIT is legal and changes no state but the stream position (40_table_init.md R82). -/
def Obligations.RepeatedInitChangesNothing : Prop :=
  ∀ s : State, StateInv s → s.initDone = true →
    exec (.init 0) s = .next { s with port := s.port.drop 1, pos := s.pos + 1 }

/-- The abstract table is the table that the loop of INIT builds, entry by entry: the written positions, and the
unwritten ones, which keep their contents (40_table_init.md R80, R84). -/
def Obligations.InitLoopBuildsTheTable : Prop :=
  ∀ (t : DigitTable) (v : Nat), v < 65536 →
    (initLoop (contentsOf t)).len v = (contentsOf (buildTable t)).len v ∧
    ∀ i, (initLoop (contentsOf t)).text v i = (contentsOf (buildTable t)).text v i

/-- The decimal rendering of every 16-bit value parses back to the value, has as many digits as the value needs, and
begins with `0` for the value 0 only (41_decimal.md R96; 10_state.md R22). -/
def Obligations.DecimalTextParsesBack : Prop :=
  ∀ v, v < 65536 →
    parseDecFrom 0 (dec v) = some v ∧ (dec v).length = ndec v ∧ 1 ≤ ndec v ∧ v < 10 ^ ndec v ∧
    (v ≠ 0 → 10 ^ (ndec v - 1) ≤ v ∧ (dec v).head? ≠ some 0x30)

/-! ### The decimal and copy formatters -/

/-- CHAR: OperandRange, NotDigit, BufOverflow in this order; else the character is written at CUR and CUR moves by 1;
RES is unchanged (41_decimal.md R91). -/
def Obligations.CharWritesOneDigit : Prop :=
  ∀ (s : State) (opd : Word32),
    let faulting (c : Byte) : State :=
      { s with fcause := c, fcmd := 0x02#8 ++ 0#24 ++ opd, port := s.port.drop 1, pos := s.pos + 1 }
    decode (0x02#8 ++ 0#24 ++ opd) = .ok (.char opd) ∧
    (256 ≤ opd.toNat → exec (.char opd) s = .next (faulting 3)) ∧
    (opd.toNat < 256 → opd.toNat < 0x30 ∨ 0x39 < opd.toNat → exec (.char opd) s = .next (faulting 4)) ∧
    (0x30 ≤ opd.toNat → opd.toNat ≤ 0x39 → s.bufSize.val < s.cur.toNat + 1 →
      exec (.char opd) s = .next (faulting 6)) ∧
    (0x30 ≤ opd.toNat → opd.toNat ≤ 0x39 → s.cur.toNat + 1 ≤ s.bufSize.val →
      ∃ m, exec (.char opd) s = .next { s with
          buf := m, cur := s.cur + 1, port := s.port.drop 1, pos := s.pos + 1 } ∧
        ∀ a, readByte m a = if a = s.cur.toNat then some (opd.setWidth 8) else readByte s.buf a)

/-- U8: OperandRange, NotInit, BufOverflow (3 bytes) in this order; else the decimal text is written at CUR, CUR moves
past it and RES is its length (41_decimal.md R92). -/
def Obligations.U8WritesDecimal : Prop :=
  ∀ (s : State) (opd : Word32),
    let faulting (c : Byte) : State :=
      { s with fcause := c, fcmd := 0x03#8 ++ 0#24 ++ opd, port := s.port.drop 1, pos := s.pos + 1 }
    decode (0x03#8 ++ 0#24 ++ opd) = .ok (.u8 opd) ∧
    (256 ≤ opd.toNat → exec (.u8 opd) s = .next (faulting 3)) ∧
    (opd.toNat < 256 → s.initDone = false → exec (.u8 opd) s = .next (faulting 5)) ∧
    (opd.toNat < 256 → s.initDone = true → s.bufSize.val < s.cur.toNat + 3 →
      exec (.u8 opd) s = .next (faulting 6)) ∧
    (opd.toNat < 256 → s.initDone = true → s.table.built = true → s.cur.toNat + 3 ≤ s.bufSize.val →
      ∃ m, exec (.u8 opd) s = .next { s with
          buf := m, cur := s.cur + BitVec.ofNat 32 (ndec opd.toNat), res := BitVec.ofNat 32 (ndec opd.toNat)
          port := s.port.drop 1, pos := s.pos + 1 } ∧
        ∀ a, readByte m a = overlay s.cur.toNat (dec opd.toNat) (readByte s.buf a) a)

/-- U16: OperandRange, NotInit, BufOverflow (5 bytes) in this order; else the decimal text is written at CUR, CUR moves
past it and RES is its length (41_decimal.md R93). -/
def Obligations.U16WritesDecimal : Prop :=
  ∀ (s : State) (opd : Word32),
    let faulting (c : Byte) : State :=
      { s with fcause := c, fcmd := 0x04#8 ++ 0#24 ++ opd, port := s.port.drop 1, pos := s.pos + 1 }
    decode (0x04#8 ++ 0#24 ++ opd) = .ok (.u16 opd) ∧
    (65536 ≤ opd.toNat → exec (.u16 opd) s = .next (faulting 3)) ∧
    (opd.toNat < 65536 → s.initDone = false → exec (.u16 opd) s = .next (faulting 5)) ∧
    (opd.toNat < 65536 → s.initDone = true → s.bufSize.val < s.cur.toNat + 5 →
      exec (.u16 opd) s = .next (faulting 6)) ∧
    (opd.toNat < 65536 → s.initDone = true → s.table.built = true → s.cur.toNat + 5 ≤ s.bufSize.val →
      ∃ m, exec (.u16 opd) s = .next { s with
          buf := m, cur := s.cur + BitVec.ofNat 32 (ndec opd.toNat), res := BitVec.ofNat 32 (ndec opd.toNat)
          port := s.port.drop 1, pos := s.pos + 1 } ∧
        ∀ a, readByte m a = overlay s.cur.toNat (dec opd.toNat) (readByte s.buf a) a)

/-- STR: BufOverflow before any payload word is taken; a wait, with nothing changed, until the payload is there;
PadNonZero past the payload; else the literal is written at CUR and CUR moves past it; RES is unchanged
(41_decimal.md R94; that the wait of 70_reset_and_hazards.md R161 is an unchanged next state is the model's choice,
entry 4). -/
def Obligations.StrCopiesTheLiteral : Prop :=
  ∀ (s : State) (opd : Word32),
    let len := opd.toNat
    let p := (len + 7) / 8
    let byte (k : Nat) : Byte := (s.port.getD (1 + k / 8) 0).extractLsb' (8 * (k % 8)) 8
    decode (0x05#8 ++ 0#24 ++ opd) = .ok (.str opd) ∧
    (s.bufSize.val < s.cur.toNat + len → exec (.str opd) s = .next { s with
      fcause := 6, fcmd := 0x05#8 ++ 0#24 ++ opd, port := s.port.drop 1, pos := s.pos + 1 }) ∧
    (s.cur.toNat + len ≤ s.bufSize.val → s.port.length < 1 + p → exec (.str opd) s = .next s) ∧
    (s.cur.toNat + len ≤ s.bufSize.val → 1 + p ≤ s.port.length → (∃ k, len ≤ k ∧ k < 8 * p ∧ byte k ≠ 0) →
      exec (.str opd) s = .next { s with
        fcause := 8, fcmd := 0x05#8 ++ 0#24 ++ opd, port := s.port.drop (1 + p), pos := s.pos + (1 + p) }) ∧
    (s.cur.toNat + len ≤ s.bufSize.val → 1 + p ≤ s.port.length → (∀ k, len ≤ k → k < 8 * p → byte k = 0) →
      ∃ m, exec (.str opd) s = .next { s with
          buf := m, cur := s.cur + opd, port := s.port.drop (1 + p), pos := s.pos + (1 + p) } ∧
        ∀ a, readByte m a = if s.cur.toNat ≤ a ∧ a < s.cur.toNat + len then some (byte (a - s.cur.toNat))
          else readByte s.buf a)

/-- U8 and U16 of the same value below 256 do the same where both have room (41_decimal.md R95). -/
def Obligations.U8AndU16Agree : Prop :=
  ∀ (s : State) (opd : Word32), opd.toNat < 256 → s.initDone = true → s.cur.toNat + 5 ≤ s.bufSize.val →
    ∃ t, exec (.u8 opd) s = .next t ∧ exec (.u16 opd) s = .next t

/-! ### The hex formatters -/

/-- HEX: BufOverflow (8 bytes); else the hex text is written at CUR, CUR moves past it and RES is its length. INIT_DONE
is not read (42_hex.md R112). -/
def Obligations.HexWritesHexText : Prop :=
  ∀ (s : State) (opd : Word32),
    decode (0x06#8 ++ 0#24 ++ opd) = .ok (.hex opd) ∧
    (s.bufSize.val < s.cur.toNat + 8 → exec (.hex opd) s = .next { s with
      fcause := 6, fcmd := 0x06#8 ++ 0#24 ++ opd, port := s.port.drop 1, pos := s.pos + 1 }) ∧
    (s.cur.toNat + 8 ≤ s.bufSize.val →
      ∃ m, exec (.hex opd) s = .next { s with
          buf := m, cur := s.cur + BitVec.ofNat 32 (nhex opd), res := BitVec.ofNat 32 (nhex opd)
          port := s.port.drop 1, pos := s.pos + 1 } ∧
        ∀ a, readByte m a = overlay s.cur.toNat (hexstr opd) (readByte s.buf a) a)

/-- HEX2: the same contract under its own opcode (42_hex.md R113). -/
def Obligations.Hex2WritesHexText : Prop :=
  ∀ (s : State) (opd : Word32),
    decode (0x07#8 ++ 0#24 ++ opd) = .ok (.hex2 opd) ∧
    (s.bufSize.val < s.cur.toNat + 8 → exec (.hex2 opd) s = .next { s with
      fcause := 6, fcmd := 0x07#8 ++ 0#24 ++ opd, port := s.port.drop 1, pos := s.pos + 1 }) ∧
    (s.cur.toNat + 8 ≤ s.bufSize.val →
      ∃ m, exec (.hex2 opd) s = .next { s with
          buf := m, cur := s.cur + BitVec.ofNat 32 (nhex opd), res := BitVec.ofNat 32 (nhex opd)
          port := s.port.drop 1, pos := s.pos + 1 } ∧
        ∀ a, readByte m a = overlay s.cur.toNat (hexstr opd) (readByte s.buf a) a)

/-- HEX and HEX2 of one value lead to the same BUF, CUR, RES and fault outcome; only FCMD, which records the command
word, tells their faults apart (42_hex.md R114; entry 13). -/
def Obligations.HexAndHex2AreEquivalent : Prop :=
  ∀ (s : State) (opd : Word32), ∃ t u, exec (.hex opd) s = .next t ∧ exec (.hex2 opd) s = .next u ∧
    u = { t with fcmd := u.fcmd } ∧ (s.cur.toNat + 8 ≤ s.bufSize.val → t = u)

/-- `nhex(v)` is the smallest `n` in `1 .. 8` with `v < 16^n`, and byte `i` of `hexstr(v)` is HEXD of nibble
`nhex(v) - 1 - i` (42_hex.md R110). -/
def Obligations.NhexIsTheLeastLength : Prop :=
  ∀ v : Word32, 1 ≤ nhex v ∧ nhex v ≤ 8 ∧ v.toNat < 16 ^ nhex v ∧
    (∀ n, 1 ≤ n → v.toNat < 16 ^ n → nhex v ≤ n) ∧ (hexstr v).length = nhex v ∧
    ∀ i, i < nhex v → (hexstr v)[i]? = some (hexd (BitVec.ofNat 4 (v.toNat / 16 ^ (nhex v - 1 - i))))

/-- The source's scan of the eight nibbles, which skips the leading zero nibbles only, gives `hexstr` (42_hex.md
R110). -/
def Obligations.NibbleScanGivesHexstr : Prop :=
  ∀ v : Word32, hexScan v = hexstr v

/-- The hex text of every 32-bit pattern reads back as the unsigned pattern, with lowercase digits only, with no
leading zero unless it is the single digit of 0; a negative value renders as its two's-complement pattern
(42_hex.md R111). -/
def Obligations.HexTextParsesBack : Prop :=
  (∀ v : Word32, parseHexFrom 0 (hexstr v) = some v.toNat ∧ (v ≠ 0 → (hexstr v).head? ≠ some 0x30)) ∧
  (∀ n : Int, -2147483648 ≤ n → n < 0 →
    parseHexFrom 0 (hexstr (BitVec.ofInt 32 n)) = some (n + 4294967296).toNat)

/-- The contents of the hex-digit ROM (10_state.md R23). -/
def Obligations.HexRomContents : Prop :=
  (∀ n : Nibble, n.toNat < 10 → (hexd n).toNat = 0x30 + n.toNat) ∧
  (∀ n : Nibble, 10 ≤ n.toNat → (hexd n).toNat = 0x61 + (n.toNat - 10))

/-! ### The cursor -/

/-- SETCUR: CursorRange when the operand is beyond BUF_SIZE; else CUR is loaded and nothing else changes
(43_cursor.md R120). -/
def Obligations.SetcurLoadsTheCursor : Prop :=
  ∀ (s : State) (opd : Word32),
    decode (0x08#8 ++ 0#24 ++ opd) = .ok (.setcur opd) ∧
    (s.bufSize.val < opd.toNat → exec (.setcur opd) s = .next { s with
      fcause := 7, fcmd := 0x08#8 ++ 0#24 ++ opd, port := s.port.drop 1, pos := s.pos + 1 }) ∧
    (opd.toNat ≤ s.bufSize.val → exec (.setcur opd) s = .next { s with
      cur := opd, port := s.port.drop 1, pos := s.pos + 1 })

/-- A sequence of conversions, STR with its payload words among them, with no SETCUR between them writes its texts back to
back: where each one passes its own capacity check, BUF holds their concatenation from the first CUR, CUR stands just
past it, and no other byte has changed (43_cursor.md R121). -/
def Obligations.ConversionsWriteBackToBack : Prop :=
  ∀ (cs : List Conversion) (rest : List Word64) (s : State), StateInv s → s.fcause = 0 →
    (∀ c ∈ cs, c.accepted s.initDone) → roomFor s.bufSize.val s.cur.toNat cs →
    s.port = cs.flatMap Conversion.words ++ rest →
    ∃ t, Host.Core.run Sys2Proof.core cs.length s = .next t ∧ t.fcause = 0 ∧ t.port = rest ∧
      t.pos = s.pos + (cs.flatMap Conversion.words).length ∧
      t.cur.toNat = s.cur.toNat + (cs.flatMap Conversion.text).length ∧
      ∀ a, readByte t.buf a = overlay s.cur.toNat (cs.flatMap Conversion.text) (readByte s.buf a) a

/-! ### Registers and the host -/

/-- The STATUS word: INIT_DONE in bit 0, FAULTED = (FCAUSE != 0) in bit 1, FCAUSE in 15:8, every other bit 0
(10_state.md R21). -/
def Obligations.StatusWordFields : Prop :=
  ∀ s : State, (statusWord s).toNat =
    (if s.initDone = true then 1 else 0) + (if s.fcause ≠ 0 then 2 else 0) + 256 * s.fcause.toNat

/-- The register read port: its five registers, 0 at every other index, and no side effect (10_state.md R32; that an
index is any natural number is entry 10). -/
def Obligations.RegisterPortReads : Prop :=
  ∀ s : State,
    hostStep (.readRegister 0) s = .next (s, .register (statusWord s)) ∧
    hostStep (.readRegister 1) s = .next (s, .register s.cur) ∧
    hostStep (.readRegister 2) s = .next (s, .register s.res) ∧
    hostStep (.readRegister 3) s = .next (s, .register (BitVec.ofNat 32 s.fcmd.toNat)) ∧
    hostStep (.readRegister 4) s = .next (s, .register (BitVec.ofNat 32 (s.fcmd.toNat / 2 ^ 32))) ∧
    ∀ index, 5 ≤ index → hostStep (.readRegister index) s = .next (s, .register 0)

/-- While the block is idle, a host write changes its byte of BUF and nothing else; the host reads back what was written
there last, by itself or by the block (20_memory.md R51, R47). -/
def Obligations.HostAccessesBuf : Prop :=
  ∀ (s : State) (a : Nat) (b : Byte), a < s.bufSize.val → idle s = true →
    ∃ m, hostStep (.writeBuf a b) s = .next ({ s with buf := m }, .nothing) ∧
      (∀ x, readByte m x = if x = a then some b else readByte s.buf x) ∧
      hostStep (.readBuf a) { s with buf := m } = .next ({ s with buf := m }, .byte b) ∧
      (∀ c, readByte s.buf a = some c → hostStep (.readBuf a) s = .next (s, .byte c))

/-- A host access outside BUF has no step: the model stops with its own fault (20_memory.md R52; entry 8). -/
def Obligations.HostAccessOutsideBufStops : Prop :=
  ∀ (s : State) (a : Nat) (b : Byte), s.bufSize.val ≤ a →
    hostStep (.readBuf a) s = .fault (.hostAddressOutsideBuf a) ∧
    hostStep (.writeBuf a b) s = .fault (.hostAddressOutsideBuf a)

/-- Reset, from every state: INIT_DONE, FCAUSE, CUR, RES, FCMD and the stream position are 0, BUF and its size are kept,
the table is no longer populated, the block waits, and the first word delivered afterwards is decoded as a command word
(70_reset_and_hazards.md R150; that every delivered word is dropped is the model's reading, entry 5, and that the wait
is an unchanged next state is the model's choice, entry 4). -/
def Obligations.ResetClearsTheBlock : Prop :=
  ∀ s : State, ∃ t, hostStep .reset s = .next (t, .nothing) ∧
    t.initDone = false ∧ t.fcause = 0 ∧ t.cur = 0 ∧ t.res = 0 ∧ t.fcmd = 0 ∧ t.pos = 0 ∧
    t.buf = s.buf ∧ t.bufSize = s.bufSize ∧ t.table.built = false ∧ step t = .next t ∧
    ∀ w i, decode w = .ok i → step (deliver w t) = exec i (deliver w t)

/-- After a reset a U8 or U16 with a legal operand faults NotInit and writes nothing, whatever ran before the reset
(70_reset_and_hazards.md R164). That the word delivered after the reset is the next one taken, with none behind it, rests
on the model's reading that reset drops every delivered word (entry 5). -/
def Obligations.ResetRequiresInitAgain : Prop :=
  ∀ (s : State) (opd : Word32),
    let t := deliver (0x04#8 ++ 0#24 ++ opd) (resetBlock s)
    let u := deliver (0x03#8 ++ 0#24 ++ opd) (resetBlock s)
    (opd.toNat < 65536 → step t = .next { t with
      fcause := 5, fcmd := 0x04#8 ++ 0#24 ++ opd, port := [], pos := 1 }) ∧
    (opd.toNat < 256 → step u = .next { u with
      fcause := 5, fcmd := 0x03#8 ++ 0#24 ++ opd, port := [], pos := 1 })

/-- Writes to BUF, by the host, never change a command already delivered or yet to be delivered (20_memory.md R54). -/
def Obligations.HostWritesDoNotReachCommands : Prop :=
  ∀ (s : State) (a : Nat) (b : Byte) (w : Word64),
    (hostWrite a b s).port = s.port ∧ fetch (hostWrite a b s) = fetch s ∧
    hasStep (hostWrite a b s) = hasStep s ∧ hostWrite a b (deliver w s) = deliver w (hostWrite a b s)

/-! ### The assembler -/

/-- The payload words of a literal hold its bytes little-endian, 8 a word, with zero padding: the block reads back the
literal (30_encoding.md R63, R69). -/
def Obligations.PayloadPackingRoundTrips : Prop :=
  ∀ text : List Byte,
    (packPayload text).length = (text.length + 7) / 8 ∧ literal (packPayload text) text.length = text ∧
    ∀ k, text.length ≤ k → payloadByte (packPayload text) k = 0

/-- A STR line, delivered to a block with room for it, writes its text at CUR in one step (30_encoding.md R69;
41_decimal.md R94). -/
def Obligations.AssembledStrWritesItsText : Prop :=
  ∀ (s : State) (text : List Byte) (ws rest : List Word64), assemble (.str text) = .ok ws → s.fcause = 0 →
    s.port = ws ++ rest → s.cur.toNat + text.length ≤ s.bufSize.val →
    ∃ t, step s = .next t ∧ t.port = rest ∧ t.fcause = 0 ∧ t.res = s.res ∧
      t.cur.toNat = s.cur.toNat + text.length ∧
      ∀ a, readByte t.buf a = overlay s.cur.toNat text (readByte s.buf a) a

/-- What assembles is a well-formed command of the length that its first word tells (30_encoding.md R62, R67, R69). -/
def Obligations.AssembledLinesAreWellFormed : Prop :=
  ∀ (line : AsmLine) (ws : List Word64), assemble line = .ok ws →
    ∃ w rest i, ws = w :: rest ∧ decode w = .ok i ∧ i.wf = true ∧ commandLength w = some ws.length

/-- An operand that does not fit its field is an assembly error, and every operand that fits assembles to its bits, for
every line that has an operand (30_encoding.md R68, R69). That HEX2 takes the negative numbers that R68 gives on the HEX
line is the model's choice (entry 11). -/
def Obligations.AssemblerChecksOperands : Prop :=
  (∀ n : Int,
    (assemble (.u8 n) = if 0 ≤ n ∧ n ≤ 255 then .ok [0x03#8 ++ 0#24 ++ BitVec.ofInt 32 n]
      else .error .operandTooWide) ∧
    (assemble (.u16 n) = if 0 ≤ n ∧ n ≤ 65535 then .ok [0x04#8 ++ 0#24 ++ BitVec.ofInt 32 n]
      else .error .operandTooWide) ∧
    (assemble (.char n) = if 0 ≤ n ∧ n ≤ 255 then .ok [0x02#8 ++ 0#24 ++ BitVec.ofInt 32 n]
      else .error .operandTooWide) ∧
    (assemble (.hex n) = if -2147483648 ≤ n ∧ n ≤ 4294967295 then .ok [0x06#8 ++ 0#24 ++ BitVec.ofInt 32 n]
      else .error .operandTooWide) ∧
    (assemble (.hex2 n) = if -2147483648 ≤ n ∧ n ≤ 4294967295 then .ok [0x07#8 ++ 0#24 ++ BitVec.ofInt 32 n]
      else .error .operandTooWide) ∧
    (assemble (.setcur n) = if 0 ≤ n ∧ n ≤ 4294967295 then .ok [0x08#8 ++ 0#24 ++ BitVec.ofInt 32 n]
      else .error .operandTooWide)) ∧
  (∀ code : Nat, assemble (.charLiteral code) =
    if 0x30 ≤ code ∧ code ≤ 0x39 then .ok [0x02#8 ++ 0#24 ++ BitVec.ofNat 32 code] else .error .badLine) ∧
  (∀ text : List Byte, assemble (.str text) =
    if text.length ≤ 4294967295 then .ok ((0x05#8 ++ 0#24 ++ BitVec.ofNat 32 text.length) :: packPayload text)
    else .error .operandTooWide)

/-- The spec's example lines assemble to its example words (30_encoding.md R70). -/
def Obligations.ExampleLinesAssemble : Prop :=
  assembleText ['I', 'N', 'I', 'T'] = .ok [0x0100000000000000] ∧
  assembleText ['C', 'H', 'A', 'R', ' ', '\'', '7', '\''] = .ok [0x0200000000000037] ∧
  assembleText ['U', '8', ' ', '2', '5', '5'] = .ok [0x03000000000000FF] ∧
  assembleText ['U', '1', '6', ' ', '6', '5', '5', '3', '5'] = .ok [0x040000000000FFFF] ∧
  assembleText ['S', 'T', 'R', ' ', '"', '1', '2', '3', '4', '5', '"'] =
    .ok [0x0500000000000005, 0x0000003534333231] ∧
  assembleText ['S', 'T', 'R', ' ', '"', '"'] = .ok [0x0500000000000000] ∧
  assembleText ['S', 'T', 'R', ' ', '"', 'A', 'B', 'C', 'D', 'E', 'F', 'G', 'H', 'I', '"'] =
    .ok [0x0500000000000009, 0x4847464544434241, 0x0000000000000049] ∧
  assembleText ['H', 'E', 'X', ' ', '2', '1', '4', '7', '4', '8', '3', '6', '4', '7'] = .ok [0x060000007FFFFFFF] ∧
  assembleText ['H', 'E', 'X', ' ', '-', '1'] = .ok [0x06000000FFFFFFFF] ∧
  assembleText ['H', 'E', 'X', '2', ' ', '0'] = .ok [0x0700000000000000] ∧
  assembleText ['S', 'E', 'T', 'C', 'U', 'R', ' ', '1', '6'] = .ok [0x0800000000000010]

/-! ### The length of a command -/

/-- The first word alone tells a command's length, whatever its RSV: 1 word for every legal opcode but STR, and
`1 + ceil(OPD / 8)` words for STR. An illegal opcode has no length: it faults BadOpcode and the block halts
(30_encoding.md R67). -/
def Obligations.CommandLengthFollowsTheOpcode : Prop :=
  ∀ w : Word64,
    let opc := w.toNat / 2 ^ 56
    (1 ≤ opc → opc ≤ 8 → opc ≠ 5 → commandLength w = some 1) ∧
    (opc = 5 → commandLength w = some (1 + (w.toNat % 2 ^ 32 + 7) / 8)) ∧
    (opc = 0 ∨ 9 ≤ opc → commandLength w = none ∧
      ∀ (s : State) (rest : List Word64), s.fcause = 0 → s.port = w :: rest →
        ∃ t, step s = .next t ∧ t.fcause = 1 ∧ t.port = rest ∧ faulted t = true)

/-! ### When the host may access BUF -/

/-- When the block is idle: it is halted, or the stream holds no next complete command, which is no word at all or a STR
that fits and whose payload words are not all there (20_memory.md R51; 70_reset_and_hazards.md R161). That a STR which
does not fit (entry 7) and an illegal word with the opcode of STR (entry 14) are complete without their payload is the
model's reading. -/
def Obligations.IdleMeansNoCompleteCommand : Prop :=
  ∀ s : State, idle s = true ↔
    s.fcause ≠ 0 ∨ s.port = [] ∨
      ∃ (w : Word64) (rest : List Word64) (opd : Word32), s.port = w :: rest ∧ decode w = .ok (.str opd) ∧
        s.cur.toNat + opd.toNat ≤ s.bufSize.val ∧ rest.length < (opd.toNat + 7) / 8

/-- The host gets at BUF in no state but an idle one: while a complete command waits to be taken, the model stops a host
access with its own fault (20_memory.md R51, R52; that the model stops is its choice, entry 7), and registers, delivery
and reset stay open to the host. -/
def Obligations.HostAccessNeedsAnIdleBlock : Prop :=
  ∀ (s : State) (a : Nat) (b : Byte), idle s = false →
    (a < s.bufSize.val → hostStep (.readBuf a) s = .fault (.hostAccessNotIdle a) ∧
      hostStep (.writeBuf a b) s = .fault (.hostAccessNotIdle a)) ∧
    (∀ h, (∀ x, h ≠ .readBuf x) → (∀ x c, h ≠ .writeBuf x c) → ∃ t r, hostStep h s = .next (t, r)) ∧
    (∀ h t r, hostStep h s = .next (t, r) → t.buf = s.buf)
end

