-- ==== Sys2Proof/Laws/State.lean ====
section
/-!
SUPPORT. The small lemmas of the state's updates: one per field per shared operation, true by rfl, so that no later
proof unfolds a record update.
-/

namespace Sys2Proof.Machine

section Consume
variable (n : Nat) (s : State)
@[simp] theorem consume_bufSize : (consume n s).bufSize = s.bufSize := rfl
@[simp] theorem consume_buf : (consume n s).buf = s.buf := rfl
@[simp] theorem consume_table : (consume n s).table = s.table := rfl
@[simp] theorem consume_initDone : (consume n s).initDone = s.initDone := rfl
@[simp] theorem consume_fcause : (consume n s).fcause = s.fcause := rfl
@[simp] theorem consume_cur : (consume n s).cur = s.cur := rfl
@[simp] theorem consume_res : (consume n s).res = s.res := rfl
@[simp] theorem consume_fcmd : (consume n s).fcmd = s.fcmd := rfl
@[simp] theorem consume_port : (consume n s).port = s.port.drop n := rfl
@[simp] theorem consume_pos : (consume n s).pos = s.pos + n := rfl
end Consume

section Emit
variable (out : List Byte) (s : State)
@[simp] theorem emit_bufSize : (emit out s).bufSize = s.bufSize := rfl
@[simp] theorem emit_buf : (emit out s).buf = memWrite s.buf s.cur.toNat out := rfl
@[simp] theorem emit_table : (emit out s).table = s.table := rfl
@[simp] theorem emit_initDone : (emit out s).initDone = s.initDone := rfl
@[simp] theorem emit_fcause : (emit out s).fcause = s.fcause := rfl
@[simp] theorem emit_cur : (emit out s).cur = s.cur + BitVec.ofNat 32 out.length := rfl
@[simp] theorem emit_res : (emit out s).res = s.res := rfl
@[simp] theorem emit_fcmd : (emit out s).fcmd = s.fcmd := rfl
@[simp] theorem emit_port : (emit out s).port = s.port := rfl
@[simp] theorem emit_pos : (emit out s).pos = s.pos := rfl
end Emit

section SetRes
variable (n : Nat) (s : State)
@[simp] theorem setRes_bufSize : (setRes n s).bufSize = s.bufSize := rfl
@[simp] theorem setRes_buf : (setRes n s).buf = s.buf := rfl
@[simp] theorem setRes_table : (setRes n s).table = s.table := rfl
@[simp] theorem setRes_initDone : (setRes n s).initDone = s.initDone := rfl
@[simp] theorem setRes_fcause : (setRes n s).fcause = s.fcause := rfl
@[simp] theorem setRes_cur : (setRes n s).cur = s.cur := rfl
@[simp] theorem setRes_res : (setRes n s).res = BitVec.ofNat 32 n := rfl
@[simp] theorem setRes_fcmd : (setRes n s).fcmd = s.fcmd := rfl
@[simp] theorem setRes_port : (setRes n s).port = s.port := rfl
@[simp] theorem setRes_pos : (setRes n s).pos = s.pos := rfl
end SetRes

section TakeFault
variable (f : FaultCause) (w : Word64) (n : Nat) (s : State)
@[simp] theorem takeFault_bufSize : (takeFault f w n s).bufSize = s.bufSize := rfl
@[simp] theorem takeFault_buf : (takeFault f w n s).buf = s.buf := rfl
@[simp] theorem takeFault_table : (takeFault f w n s).table = s.table := rfl
@[simp] theorem takeFault_initDone : (takeFault f w n s).initDone = s.initDone := rfl
@[simp] theorem takeFault_fcause : (takeFault f w n s).fcause = faultCode f := rfl
@[simp] theorem takeFault_cur : (takeFault f w n s).cur = s.cur := rfl
@[simp] theorem takeFault_res : (takeFault f w n s).res = s.res := rfl
@[simp] theorem takeFault_fcmd : (takeFault f w n s).fcmd = w := rfl
@[simp] theorem takeFault_port : (takeFault f w n s).port = s.port.drop n := rfl
@[simp] theorem takeFault_pos : (takeFault f w n s).pos = s.pos + n := rfl
end TakeFault

section Reset
variable (s : State)
@[simp] theorem resetBlock_bufSize : (resetBlock s).bufSize = s.bufSize := rfl
@[simp] theorem resetBlock_buf : (resetBlock s).buf = s.buf := rfl
@[simp] theorem resetBlock_table : (resetBlock s).table = ⟨s.table.seed + 1, false⟩ := rfl
@[simp] theorem resetBlock_initDone : (resetBlock s).initDone = false := rfl
@[simp] theorem resetBlock_fcause : (resetBlock s).fcause = 0 := rfl
@[simp] theorem resetBlock_cur : (resetBlock s).cur = 0 := rfl
@[simp] theorem resetBlock_res : (resetBlock s).res = 0 := rfl
@[simp] theorem resetBlock_fcmd : (resetBlock s).fcmd = 0 := rfl
@[simp] theorem resetBlock_port : (resetBlock s).port = [] := rfl
@[simp] theorem resetBlock_pos : (resetBlock s).pos = 0 := rfl
end Reset

@[simp] theorem buildTable_seed (t : DigitTable) : (buildTable t).seed = t.seed := rfl
@[simp] theorem buildTable_built (t : DigitTable) : (buildTable t).built = true := rfl

/-- What a fault of a command answers (60_exceptions.md R133). -/
theorem raise_eq (f : FaultCause) (i : Instr) (n : Nat) (s : State) :
    raise f i n s = .next (takeFault f (encode i) n s) := rfl

end Sys2Proof.Machine
end

