-- ==== Sys2Proof/Laws/Memory.lean ====
section
/-!
SUPPORT. What the operations over BUF do: what reading one byte gives after a write, and that every write keeps the
canonical form and stays inside the buffer.
-/

namespace Sys2Proof.Machine

theorem getCell_putCell (a x : Nat) (b : Byte) (cells : List Host.Cell) :
    getCell x (putCell a b cells) = if x = a then some b else getCell x cells := by
  induction cells with
  | nil => by_cases h : x = a <;> simp [putCell, getCell, h]
  | cons c rest ih =>
    obtain ⟨y, d⟩ := c
    by_cases h1 : a < y
    · by_cases h : x = a <;> simp [putCell, getCell, h1, h]
    · by_cases h2 : a = y
      · subst h2
        by_cases h : x = a <;> simp [putCell, getCell, h]
      · by_cases h : x = a
        · subst h; simp [putCell, getCell, h1, h2, ih]
        · simp [putCell, getCell, h1, h2, ih, h]

theorem mem_putCell {a : Nat} {b : Byte} {cells : List Host.Cell} {c : Host.Cell} (h : c ∈ putCell a b cells) :
    c = (a, b) ∨ c ∈ cells := by
  induction cells with
  | nil => simpa [putCell] using h
  | cons d rest ih =>
    obtain ⟨y, e⟩ := d
    simp only [putCell] at h
    split at h
    · simpa using h
    · split at h
      · rcases List.mem_cons.1 h with h | h
        · exact .inl h
        · exact .inr (List.mem_cons_of_mem _ h)
      · rcases List.mem_cons.1 h with h | h
        · exact .inr (h ▸ List.mem_cons_self)
        · exact (ih h).imp id (List.mem_cons_of_mem _)

theorem putCell_wf {a : Nat} {b : Byte} {cells : List Host.Cell}
    (h : cells.Pairwise (fun x y => x.1 < y.1)) : (putCell a b cells).Pairwise (fun x y => x.1 < y.1) := by
  induction cells with
  | nil => simp [putCell]
  | cons d rest ih =>
    obtain ⟨y, e⟩ := d
    obtain ⟨hy, hr⟩ := List.pairwise_cons.1 h
    simp only [putCell]
    split
    · rename_i hlt
      refine List.pairwise_cons.2 ⟨fun c hc => ?_, h⟩
      rcases List.mem_cons.1 hc with rfl | hc
      · exact hlt
      · exact lt_trans hlt (hy c hc)
    · split
      · rename_i heq
        subst heq
        exact List.pairwise_cons.2 ⟨hy, hr⟩
      · rename_i h1 h2
        refine List.pairwise_cons.2 ⟨fun c hc => ?_, ih hr⟩
        rcases mem_putCell hc with rfl | hc
        · show y < a
          omega
        · exact hy c hc

theorem empty_wf : Memory.empty.wf := by simp [Memory.empty, Memory.wf]

theorem reset_buf_wf : State.reset.buf.wf := empty_wf

@[simp] theorem readByte_writeByte (m : Memory) (a x : Nat) (b : Byte) :
    readByte (writeByte m a b) x = if x = a then some b else readByte m x := getCell_putCell a x b m.cells

theorem writeByte_wf {m : Memory} (h : m.wf) (a : Nat) (b : Byte) : (writeByte m a b).wf := putCell_wf h

/-- Every byte of BUF after `MemWrite(start, len(out), out)` (20_memory.md R41, R45). -/
theorem readByte_memWrite (out : List Byte) (m : Memory) (start a : Nat) :
    readByte (memWrite m start out) a = Safety.overlay start out (readByte m a) a := by
  induction out generalizing m start with
  | nil => simp [memWrite, Safety.overlay]
  | cons b bs ih =>
    rw [memWrite, ih, readByte_writeByte]
    unfold Safety.overlay
    simp only [List.length_cons]
    by_cases h1 : a = start
    · subst h1
      simp
    · by_cases h2 : start + 1 ≤ a ∧ a < start + 1 + bs.length
      · have h3 : start ≤ a ∧ a < start + (bs.length + 1) := by omega
        have h4 : a - start = (a - (start + 1)) + 1 := by omega
        rw [if_pos h2, if_pos h3, h4, List.getElem?_cons_succ]
      · have h3 : ¬(start ≤ a ∧ a < start + (bs.length + 1)) := by omega
        rw [if_neg h2, if_neg h3, if_neg h1]

/-- Every memory operation keeps the canonical form. -/
theorem memWrite_wf (out : List Byte) {m : Memory} (h : m.wf) (start : Nat) : (memWrite m start out).wf := by
  induction out generalizing m start with
  | nil => exact h
  | cons b bs ih => exact ih (writeByte_wf h start b) (start + 1)

theorem writeByte_inside {m : Memory} {a : Nat} {b : Byte} {c : Host.Cell} (h : c ∈ (writeByte m a b).cells) :
    c = (a, b) ∨ c ∈ m.cells := mem_putCell h

/-- A run of bytes writes only cells of its extent. -/
theorem memWrite_inside {out : List Byte} {m : Memory} {start : Nat} {c : Host.Cell}
    (h : c ∈ (memWrite m start out).cells) : (start ≤ c.1 ∧ c.1 < start + out.length) ∨ c ∈ m.cells := by
  induction out generalizing m start with
  | nil => exact .inr h
  | cons b bs ih =>
    simp only [List.length_cons]
    rcases ih h with h | h
    · left; omega
    · rcases writeByte_inside h with rfl | h
      · left; simp
      · exact .inr h

end Sys2Proof.Machine
end

