-- ==== Sys2Proof/Laws/Ops.lean ====
section
/-!
SUPPORT. What the shared operations can do, once each: the capacity check, the write at the cursor, the digit table's
entries, the hex rendering's length, and which commands the opcode map gives.
-/

namespace Sys2Proof.Machine

theorem capacityOK_iff (s : State) (m : Nat) : capacityOK s m = true ↔ s.cur.toNat + m ≤ s.bufSize.val := by
  simp [capacityOK]

theorem capacityOK_eq_false (s : State) (m : Nat) : capacityOK s m = false ↔ s.bufSize.val < s.cur.toNat + m := by
  simp [capacityOK]

/-- The cursor after a write that fits: no wrap (10_state.md R24). -/
theorem emit_cur_toNat {out : List Byte} {s : State} (h : s.cur.toNat + out.length ≤ s.bufSize.val) :
    (emit out s).cur.toNat = s.cur.toNat + out.length := by
  have hb := s.bufSize.isLt
  simp only [emit_cur, BitVec.toNat_add, BitVec.toNat_ofNat]
  omega

/-- The whole of BUF after a write at the cursor (20_memory.md R45). -/
theorem readByte_emit (out : List Byte) (s : State) (a : Nat) :
    readByte (emit out s).buf a = Safety.overlay s.cur.toNat out (readByte s.buf a) a := by
  rw [emit_buf, readByte_memWrite]

theorem ndec_pos (v : Nat) : 1 ≤ ndec v := by unfold ndec; split_ifs <;> omega

theorem ndec_le (v : Nat) : ndec v ≤ 5 := by unfold ndec; split_ifs <;> omega

theorem ndec_le_three {v : Nat} (h : v < 256) : ndec v ≤ 3 := by unfold ndec; split_ifs <;> omega

@[simp] theorem dec_length (v : Nat) : (dec v).length = ndec v := by simp [dec]

/-- The length part of a built table (40_table_init.md R81). -/
theorem tblLen_built {t : DigitTable} (h : t.built = true) (v : Word16) : (tblLen t v).toNat = ndec v.toNat := by
  have := ndec_le v.toNat
  simp only [tblLen, h, if_true, BitVec.toNat_ofNat]
  omega

/-- What U8 and U16 copy from a built table (40_table_init.md R81). -/
theorem tblEntry_built {t : DigitTable} (h : t.built = true) (v : Word16) : tblEntry t v = dec v.toNat := by
  rw [tblEntry, tblLen_built h, dec]
  refine List.map_congr_left fun i hi => ?_
  simp [tblText, h, List.mem_range.1 hi]

theorem topNibble_le (v : Word32) (n : Nat) : topNibble v n ≤ n := by
  induction n with
  | zero => simp [topNibble]
  | succ n ih =>
    unfold topNibble
    split
    · exact le_refl _
    · omega

theorem nhex_le (v : Word32) : nhex v ≤ 8 := by
  have := topNibble_le v 7
  unfold nhex
  split <;> omega

theorem nhex_pos (v : Word32) : 1 ≤ nhex v := by unfold nhex; split <;> omega

@[simp] theorem hexstr_length (v : Word32) : (hexstr v).length = nhex v := by simp [hexstr]

@[simp] theorem literal_length (p : List Word64) (len : Nat) : (literal p len).length = len := by simp [literal]

@[simp] theorem faulted_iff (s : State) : faulted s = true ↔ s.fcause ≠ 0 := by simp [faulted]

@[simp] theorem faulted_eq_false (s : State) : faulted s = false ↔ s.fcause = 0 := by simp [faulted]

/-- The opcode map gives a command exactly the opcode and the operand it was given (30_encoding.md R61). -/
theorem instrOf_eq_some {opc : Byte} {opd : Word32} {i : Instr} (h : instrOf opc opd = some i) :
    opcodeOf i = opc ∧ operandOf i = opd := by
  unfold instrOf at h
  split at h
  all_goals first
    | (simp only [Option.some.injEq] at h; subst h; refine ⟨BitVec.eq_of_toNat_eq ?_, rfl⟩; simp_all [opcodeOf])
    | cases h

/-- A word that decodes has its opcode in the opcode map, and RSV = 0 (30_encoding.md R66). -/
theorem decode_eq_ok {w : Word64} {i : Instr} (h : decode w = .ok i) :
    ∃ j, instrOf (opcField w) (opdField w) = some j ∧ j = i ∧ rsvField w = 0 := by
  unfold decode at h
  split at h
  · cases h
  · rename_i j hj
    split at h
    · cases h
    · rename_i hr
      exact ⟨j, hj, Except.ok.inj h, by simpa using hr⟩

/-- The length of a command that decodes: 1 word, or with a STR its payload words too (30_encoding.md R67). -/
theorem commandLength_of_decode {w : Word64} {i : Instr} (h : decode w = .ok i) :
    commandLength w = some (match i with
      | .str opd => 1 + payloadWords opd.toNat
      | _ => 1) := by
  obtain ⟨j, hj, rfl, -⟩ := decode_eq_ok h
  rw [commandLength, hj]
  cases j <;> rfl

end Sys2Proof.Machine
end

