-- ==== Sys2Proof/Laws/PerInstr.lean ====
section
/-!
SUPPORT. Per-command families: facts about every command as syntax, one lemma per constructor.
-/

namespace Sys2Proof.Laws

/-- The fields of a command word (30_encoding.md R60): the encoder puts the opcode of R61 in 63:56, 0 in the reserved
field, and the operand in 31:0. -/
def EncodeFields.Statement (i : Instr) : Prop :=
  opcField (encode i) = opcodeOf i ∧ rsvField (encode i) = 0 ∧ opdField (encode i) = operandOf i

/-- The number of a word put together from three fields, RSV 0. -/
theorem toNat_fields (opc : Byte) (opd : Word32) :
    (opc ++ (0 : BitVec 24) ++ opd : Word64).toNat = opc.toNat * 72057594037927936 + opd.toNat := by
  have h1 : (opc ++ (0 : BitVec 24) ++ opd : Word64).toNat
      = (opc ++ (0 : BitVec 24)).toNat <<< 32 ||| opd.toNat := BitVec.toNat_append _ _
  have h2 : (opc ++ (0 : BitVec 24)).toNat = opc.toNat <<< 24 ||| 0 := BitVec.toNat_append _ _
  rw [h1, ← Nat.shiftLeft_add_eq_or_of_lt opd.isLt, h2, Nat.or_zero, Nat.shiftLeft_eq, Nat.shiftLeft_eq]
  omega

/-- The three fields of a word, from its number. -/
theorem fields_of_toNat {w : Word64} {opc : Byte} {opd : Word32}
    (h : w.toNat = opc.toNat * 72057594037927936 + opd.toNat) :
    opcField w = opc ∧ rsvField w = 0 ∧ opdField w = opd := by
  have h1 := opc.isLt
  have h2 := opd.isLt
  refine ⟨?_, ?_, ?_⟩ <;> apply BitVec.eq_of_toNat_eq <;>
    simp only [opcField, rsvField, opdField, BitVec.extractLsb'_toNat, h, Nat.shiftRight_eq_div_pow,
      BitVec.ofNat_eq_ofNat, BitVec.toNat_ofNat] <;> omega

/-- The three fields of a word put together from three fields. -/
theorem fields_of_append (opc : Byte) (opd : Word32) (w : Word64) (h : w = opc ++ (0 : BitVec 24) ++ opd) :
    opcField w = opc ∧ rsvField w = 0 ∧ opdField w = opd :=
  fields_of_toNat (h ▸ toNat_fields opc opd)

theorem EncodeFields.init (opd : Word32) : EncodeFields.Statement (.init opd) := fields_of_append _ _ _ rfl
theorem EncodeFields.char (opd : Word32) : EncodeFields.Statement (.char opd) := fields_of_append _ _ _ rfl
theorem EncodeFields.u8 (opd : Word32) : EncodeFields.Statement (.u8 opd) := fields_of_append _ _ _ rfl
theorem EncodeFields.u16 (opd : Word32) : EncodeFields.Statement (.u16 opd) := fields_of_append _ _ _ rfl
theorem EncodeFields.str (opd : Word32) : EncodeFields.Statement (.str opd) := fields_of_append _ _ _ rfl
theorem EncodeFields.hex (opd : Word32) : EncodeFields.Statement (.hex opd) := fields_of_append _ _ _ rfl
theorem EncodeFields.hex2 (opd : Word32) : EncodeFields.Statement (.hex2 opd) := fields_of_append _ _ _ rfl
theorem EncodeFields.setcur (opd : Word32) : EncodeFields.Statement (.setcur opd) := fields_of_append _ _ _ rfl

end Sys2Proof.Laws
end

