-- ==== Sys2Proof/Laws/Run.lean ====
section
/-!
SUPPORT. Runs: how one step of a run unrolls, and what each outcome of the fetch makes of a step.
-/

namespace Sys2Proof.Machine

/-- A run of one more step, for any machine. -/
theorem run_succ_of_step (M : Host.Core) {s t : M.State} (k : Nat) (h : M.step s = .next t) :
    M.run (k + 1) s = M.run k t := by
  simp [Host.Core.run, h]

/-- A run of this machine of one more step. -/
theorem core_run_succ {s t : State} (k : Nat) (h : step s = .next t) :
    Host.Core.run core (k + 1) s = Host.Core.run core k t :=
  run_succ_of_step core k h

/-- The run of no steps. -/
theorem core_run_zero (s : State) : Host.Core.run core 0 s = .next s := rfl

theorem fetch_of_faulted {s : State} (h : s.fcause ≠ 0) : fetch s = .nothing := by
  have hf : faulted s = true := (faulted_iff s).2 h
  simp [fetch, hf]

theorem fetch_of_empty {s : State} (h : s.port = []) : fetch s = .nothing := by
  simp [fetch, h]

theorem fetch_of_command {s : State} {w : Word64} {rest : List Word64} {i : Instr} (h0 : s.fcause = 0)
    (hp : s.port = w :: rest) (hd : decode w = .ok i) : fetch s = .command i := by
  have hf : faulted s = false := (faulted_eq_false s).2 h0
  simp [fetch, hf, hp, hd]

theorem fetch_of_illegal {s : State} {w : Word64} {rest : List Word64} {e : DecodeError} (h0 : s.fcause = 0)
    (hp : s.port = w :: rest) (hd : decode w = .error e) : fetch s = .illegal (decodeFault e) w := by
  have hf : faulted s = false := (faulted_eq_false s).2 h0
  simp [fetch, hf, hp, hd]

theorem step_of_fetch_nothing {s : State} (h : fetch s = .nothing) : step s = .next s := by
  simp [step, h]

theorem step_of_fetch_illegal {s : State} {f : FaultCause} {w : Word64} (h : fetch s = .illegal f w) :
    step s = .next (takeFault f w 1 s) := by
  simp [step, h]

/-- What the fetch can find: nothing (halted, or no word), an illegal word, or a command, the last two at the head of
the stream of a block that is not halted. -/
theorem fetch_cases (s : State) :
    (fetch s = .nothing ∧ (s.fcause ≠ 0 ∨ s.port = [])) ∨
    (∃ w rest e, s.fcause = 0 ∧ s.port = w :: rest ∧ decode w = .error e ∧ fetch s = .illegal (decodeFault e) w) ∨
    (∃ w rest i, s.fcause = 0 ∧ s.port = w :: rest ∧ decode w = .ok i ∧ fetch s = .command i) := by
  by_cases h0 : s.fcause = 0
  · cases hp : s.port with
    | nil => exact .inl ⟨fetch_of_empty hp, .inr rfl⟩
    | cons w rest =>
      cases hd : decode w with
      | error e => exact .inr (.inl ⟨w, rest, e, h0, rfl, hd, fetch_of_illegal h0 hp hd⟩)
      | ok i => exact .inr (.inr ⟨w, rest, i, h0, rfl, hd, fetch_of_command h0 hp hd⟩)
  · exact .inl ⟨fetch_of_faulted h0, .inl h0⟩

theorem possibleCauses_encode (i : Instr) : Safety.possibleCauses (encode i) =
    match i with
    | .init _ => [2]
    | .char _ => [2, 3, 4, 6]
    | .u8 _ => [2, 3, 5, 6]
    | .u16 _ => [2, 3, 5, 6]
    | .str _ => [2, 6, 8]
    | .hex _ => [2, 6]
    | .hex2 _ => [2, 6]
    | .setcur _ => [2, 7] := by
  cases i with
  | init opd => simp [Safety.possibleCauses, (Laws.EncodeFields.init opd).1, opcodeOf]
  | char opd => simp [Safety.possibleCauses, (Laws.EncodeFields.char opd).1, opcodeOf]
  | u8 opd => simp [Safety.possibleCauses, (Laws.EncodeFields.u8 opd).1, opcodeOf]
  | u16 opd => simp [Safety.possibleCauses, (Laws.EncodeFields.u16 opd).1, opcodeOf]
  | str opd => simp [Safety.possibleCauses, (Laws.EncodeFields.str opd).1, opcodeOf]
  | hex opd => simp [Safety.possibleCauses, (Laws.EncodeFields.hex opd).1, opcodeOf]
  | hex2 opd => simp [Safety.possibleCauses, (Laws.EncodeFields.hex2 opd).1, opcodeOf]
  | setcur opd => simp [Safety.possibleCauses, (Laws.EncodeFields.setcur opd).1, opcodeOf]

/-- A command answers with one of its own faults, `n` words consumed. -/
def FaultsWith (i : Instr) (s : State) (f : FaultCause) (n : Nat) : Prop :=
  exec i s = .next (takeFault f (encode i) n s) ∧ (faultCode f).toNat ∈ Safety.possibleCauses (encode i) ∧
    ((f ≠ .padNonZero ∧ n = 1) ∨
      (f = .padNonZero ∧ ∃ opd, i = .str opd ∧ n = 1 + payloadWords opd.toNat ∧ n ≤ s.port.length))

theorem faultsWith_one {i : Instr} {s : State} {f : FaultCause} (h : exec i s = raise f i 1 s)
    (hf : f ≠ .padNonZero) (hm : (faultCode f).toNat ∈ Safety.possibleCauses (encode i)) : FaultsWith i s f 1 :=
  ⟨h, hm, .inl ⟨hf, rfl⟩⟩

/-- Everything an executed command can do: take one of its faults, wait (STR), populate the table, move the cursor, or
write bytes at the cursor within the buffer. -/
theorem exec_cases (i : Instr) (s : State) :
    (∃ f n, FaultsWith i s f n) ∨
    (exec i s = .next s ∧ ∃ opd, i = .str opd ∧ s.port.length < 1 + payloadWords opd.toNat ∧
      s.cur.toNat + opd.toNat ≤ s.bufSize.val) ∨
    (exec i s = .next { consume 1 s with table := buildTable s.table, initDone := true } ∧ i = .init 0) ∨
    (∃ opd, i = .setcur opd ∧ opd.toNat ≤ s.bufSize.val ∧ exec i s = .next { consume 1 s with cur := opd }) ∨
    (∃ out n, exec i s = .next (emit out (consume n s)) ∧
      ((∃ opd, i = .char opd ∧ n = 1 ∧ out = [opd8 opd] ∧ s.cur.toNat + 1 ≤ s.bufSize.val) ∨
        ∃ opd, i = .str opd ∧ n = 1 + payloadWords opd.toNat ∧ n ≤ s.port.length ∧
          out = literal (payloadAt s opd.toNat) opd.toNat ∧ s.cur.toNat + opd.toNat ≤ s.bufSize.val)) ∨
    (∃ v, exec i s = .next (emitEntry v (consume 1 s)) ∧ s.initDone = true ∧
      ((∃ opd, i = .u8 opd ∧ v = u8Index opd ∧ opd.extractLsb' 8 24 = 0 ∧ s.cur.toNat + 3 ≤ s.bufSize.val) ∨
        ∃ opd, i = .u16 opd ∧ v = opd16 opd ∧ opd.extractLsb' 16 16 = 0 ∧ s.cur.toNat + 5 ≤ s.bufSize.val)) ∨
    (∃ v, exec i s = .next (emitHex v (consume 1 s)) ∧ s.cur.toNat + 8 ≤ s.bufSize.val ∧
      (i = .hex v ∨ i = .hex2 v)) := by
  have hc := possibleCauses_encode i
  cases i with
  | init opd =>
    by_cases h : opd = 0
    · subst h
      exact .inr (.inr (.inl ⟨by simp [exec, execInit], rfl⟩))
    · refine .inl ⟨_, _, faultsWith_one (f := .reservedBits) ?_ (by decide) (by simp [hc, faultCode])⟩
      simp only [exec, execInit, ne_eq, h, not_false_eq_true, if_true]
  | char opd =>
    by_cases h1 : above8 opd = true
    · exact .inl ⟨_, _, faultsWith_one (f := .operandRange) (by simp [exec, execChar, h1]) (by decide) (by simp [hc, faultCode])⟩
    by_cases h2 : isDigitCode (opd8 opd) = true
    swap
    · exact .inl ⟨_, _, faultsWith_one (f := .notDigit) (by simp [exec, execChar, h1, h2]) (by decide)
        (by simp [hc, faultCode])⟩
    by_cases h3 : capacityOK s 1 = true
    swap
    · exact .inl ⟨_, _, faultsWith_one (f := .bufOverflow) (by simp [exec, execChar, h1, h2, h3]) (by decide)
        (by simp [hc, faultCode])⟩
    exact .inr (.inr (.inr (.inr (.inl ⟨[opd8 opd], 1, by simp [exec, execChar, h1, h2, h3],
      .inl ⟨opd, rfl, rfl, rfl, (capacityOK_iff _ _).1 h3⟩⟩))))
  | u8 opd =>
    by_cases h1 : above8 opd = true
    · exact .inl ⟨_, _, faultsWith_one (f := .operandRange) (by simp [exec, execU8, h1]) (by decide) (by simp [hc, faultCode])⟩
    by_cases h2 : s.initDone = true
    swap
    · exact .inl ⟨_, _, faultsWith_one (f := .notInit) (by simp [exec, execU8, h1, h2]) (by decide)
        (by simp [hc, faultCode])⟩
    by_cases h3 : capacityOK s 3 = true
    swap
    · exact .inl ⟨_, _, faultsWith_one (f := .bufOverflow) (by simp [exec, execU8, h1, h2, h3]) (by decide)
        (by simp [hc, faultCode])⟩
    exact .inr (.inr (.inr (.inr (.inr (.inl ⟨_, by simp [exec, execU8, h1, h2, h3], h2,
      .inl ⟨opd, rfl, rfl, by simpa [above8] using h1, (capacityOK_iff _ _).1 h3⟩⟩)))))
  | u16 opd =>
    by_cases h1 : above16 opd = true
    · exact .inl ⟨_, _, faultsWith_one (f := .operandRange) (by simp [exec, execU16, h1]) (by decide) (by simp [hc, faultCode])⟩
    by_cases h2 : s.initDone = true
    swap
    · exact .inl ⟨_, _, faultsWith_one (f := .notInit) (by simp [exec, execU16, h1, h2]) (by decide)
        (by simp [hc, faultCode])⟩
    by_cases h3 : capacityOK s 5 = true
    swap
    · exact .inl ⟨_, _, faultsWith_one (f := .bufOverflow) (by simp [exec, execU16, h1, h2, h3]) (by decide)
        (by simp [hc, faultCode])⟩
    exact .inr (.inr (.inr (.inr (.inr (.inl ⟨_, by simp [exec, execU16, h1, h2, h3], h2,
      .inr ⟨opd, rfl, rfl, by simpa [above16] using h1, (capacityOK_iff _ _).1 h3⟩⟩)))))
  | str opd =>
    by_cases h1 : capacityOK s opd.toNat = true
    swap
    · exact .inl ⟨_, _, faultsWith_one (f := .bufOverflow) (by simp [exec, execStr, h1]) (by decide)
        (by simp [hc, faultCode])⟩
    have h1' := (capacityOK_iff _ _).1 h1
    by_cases h2 : payloadPresent s opd.toNat = true
    swap
    · exact .inr (.inl ⟨by simp [exec, execStr, h1, h2], opd, rfl, by simpa [payloadPresent] using h2, h1'⟩)
    have h2' : 1 + payloadWords opd.toNat ≤ s.port.length := by simpa [payloadPresent] using h2
    by_cases h3 : paddingZero (payloadAt s opd.toNat) opd.toNat = true
    swap
    · exact .inl ⟨.padNonZero, _, by simp [exec, execStr, h1, h2, h3, raise_eq], by simp [hc, faultCode],
        .inr ⟨rfl, opd, rfl, rfl, h2'⟩⟩
    exact .inr (.inr (.inr (.inr (.inl ⟨literal (payloadAt s opd.toNat) opd.toNat, _,
      by simp [exec, execStr, h1, h2, h3], .inr ⟨opd, rfl, rfl, h2', rfl, h1'⟩⟩))))
  | hex opd =>
    by_cases h1 : capacityOK s 8 = true
    swap
    · exact .inl ⟨_, _, faultsWith_one (f := .bufOverflow) (by simp [exec, execHex, h1]) (by decide)
        (by simp [hc, faultCode])⟩
    exact .inr (.inr (.inr (.inr (.inr (.inr ⟨opd, by simp [exec, execHex, h1], (capacityOK_iff _ _).1 h1, .inl rfl⟩)))))
  | hex2 opd =>
    by_cases h1 : capacityOK s 8 = true
    swap
    · exact .inl ⟨_, _, faultsWith_one (f := .bufOverflow) (by simp [exec, execHex2, h1]) (by decide)
        (by simp [hc, faultCode])⟩
    exact .inr (.inr (.inr (.inr (.inr (.inr ⟨opd, by simp [exec, execHex2, h1], (capacityOK_iff _ _).1 h1, .inr rfl⟩)))))
  | setcur opd =>
    by_cases h1 : s.bufSize.val < opd.toNat
    · exact .inl ⟨_, _, faultsWith_one (f := .cursorRange) (by simp [exec, execSetcur, h1]) (by decide)
        (by simp [hc, faultCode])⟩
    exact .inr (.inr (.inr (.inl ⟨opd, rfl, Nat.le_of_not_lt h1, by simp [exec, execSetcur, h1]⟩)))

end Sys2Proof.Machine
end

