-- ==== Sys2Proof/Laws/HostPort.lean ====
section
/-!
SUPPORT. What the host can do: when it may access BUF, and what one host action can make of the state.
-/

namespace Sys2Proof.Machine

theorem idle_of_faulted {s : State} (h : s.fcause ≠ 0) : idle s = true := by
  simp [idle, hasStep, fetch_of_faulted h]

theorem idle_of_empty {s : State} (h : s.port = []) : idle s = true := by
  simp [idle, hasStep, fetch_of_empty h]

/-- A host write to BUF leaves the block as idle as it was. -/
@[simp] theorem idle_hostWrite (a : Nat) (b : Byte) (s : State) : idle (hostWrite a b s) = idle s := rfl

@[simp] theorem hostWrite_bufSize (a : Nat) (b : Byte) (s : State) : (hostWrite a b s).bufSize = s.bufSize := rfl

/-- The host may access exactly the bytes of BUF, exactly while the block is idle (20_memory.md R51, R52). -/
theorem hostBufFault_eq_none (s : State) (a : Nat) :
    hostBufFault s a = none ↔ a < s.bufSize.val ∧ idle s = true := by
  unfold hostBufFault
  split_ifs with h1 h2 <;> simp_all

/-- Everything an answered host action can do: deliver a word, read and change nothing, write one byte of an idle block's
BUF, or reset. -/
theorem hostStep_cases {h : HostAction} {s t : State} {r : HostReply} (ht : hostStep h s = .next (t, r)) :
    (∃ w, h = .deliver w ∧ t = deliver w s) ∨
    (t = s ∧ ((∃ index, h = .readRegister index) ∨ ∃ a, h = .readBuf a ∧ a < s.bufSize.val ∧ idle s = true)) ∨
    (∃ a b, h = .writeBuf a b ∧ a < s.bufSize.val ∧ idle s = true ∧ t = hostWrite a b s) ∨
    (h = .reset ∧ t = resetBlock s) := by
  cases h with
  | deliver w => cases ht; exact .inl ⟨w, rfl, rfl⟩
  | readRegister index => cases ht; exact .inr (.inl ⟨rfl, .inl ⟨index, rfl⟩⟩)
  | reset => cases ht; exact .inr (.inr (.inr ⟨rfl, rfl⟩))
  | readBuf a =>
    rw [hostStep] at ht
    split at ht
    · rename_i hn
      cases ht
      exact .inr (.inl ⟨rfl, .inr ⟨a, rfl, (hostBufFault_eq_none _ a).1 hn⟩⟩)
    · cases ht
  | writeBuf a b =>
    rw [hostStep] at ht
    split at ht
    · rename_i hn
      cases ht
      have hn := (hostBufFault_eq_none _ a).1 hn
      exact .inr (.inr (.inl ⟨a, b, rfl, hn.1, hn.2, rfl⟩))
    · cases ht

end Sys2Proof.Machine
end

