-- ==== Sys2Proof/Tests/Slice0.lean ====
section
/-!
SUPPORT. The model's own tests. Expected values come from the spec: its encodings written out bit by bit
(30_encoding.md R60 to R63), its test vectors (95_test_vectors.md section 2) and its rules. The second half shows, for
every statement that has hypotheses, a concrete state and operands that meet them.
-/

namespace Sys2Proof.Tests

open Sys2Proof.Machine Sys2Proof.Safety

/-! ### Well-formedness refuses (R62) -/

theorem test_wf_refuses_init_operand : (Instr.init 1).wf = false := by decide
theorem test_wf_refuses_char_above_8_bits : (Instr.char 0x130).wf = false := by decide
theorem test_wf_refuses_u8_above_8_bits : (Instr.u8 0x100).wf = false := by decide
theorem test_wf_refuses_u16_above_16_bits : (Instr.u16 0x10000).wf = false := by decide
theorem test_wf_accepts_field_ends :
    (Instr.init 0).wf ∧ (Instr.char 0xFF).wf ∧ (Instr.u8 0xFF).wf ∧ (Instr.u16 0xFFFF).wf ∧
      (Instr.str 0xFFFFFFFF).wf := by decide

/-! ### Decoding of words written out from the encoding (R60 to R62): OPC, RSV, OPD -/

theorem test_decode_init :
    decode 0b00000001_000000000000000000000000_00000000000000000000000000000000 = .ok (.init 0) := by decide
theorem test_decode_char :
    decode 0b00000010_000000000000000000000000_00000000000000000000000000110111 = .ok (.char 0x37) := by decide
theorem test_decode_u8 :
    decode 0b00000011_000000000000000000000000_00000000000000000000000011111111 = .ok (.u8 255) := by decide
theorem test_decode_u16 :
    decode 0b00000100_000000000000000000000000_00000000000000001111111111111111 = .ok (.u16 65535) := by decide
theorem test_decode_str :
    decode 0b00000101_000000000000000000000000_00000000000000000000000000000101 = .ok (.str 5) := by decide
theorem test_decode_hex :
    decode 0b00000110_000000000000000000000000_01111111111111111111111111111111 = .ok (.hex 0x7FFFFFFF) := by decide
theorem test_decode_hex2 :
    decode 0b00000111_000000000000000000000000_11011110101011011011111011101111 = .ok (.hex2 0xDEADBEEF) := by decide
theorem test_decode_setcur :
    decode 0b00001000_000000000000000000000000_00000000000000000000000000010000 = .ok (.setcur 16) := by decide
theorem test_decode_refuses_reserved_opcodes :
    decode 0 = .error .badOpcode ∧ decode 0x0900000000000000 = .error .badOpcode ∧
      decode 0xFF00000000000000 = .error .badOpcode := by decide
theorem test_decode_refuses_rsv :
    decode 0x0400000100000005 = .error .reservedBits ∧ decode 0x0680000000000000 = .error .reservedBits := by decide
theorem test_decode_badOpcode_before_rsv : decode 0x0900000100000000 = .error .badOpcode := by decide
theorem test_command_length_ignores_rsv :
    commandLength 0x0100000100000000 = some 1 ∧ commandLength 0x0500000100000009 = some 3 ∧
      commandLength 0x0900000000000000 = none := by decide
theorem test_encode_words :
    encode (.u8 255) = 0x03000000000000FF ∧ encode (.setcur 16) = 0x0800000000000010 := by decide
theorem test_table_word_of_str_takes_first_word :
    decodeTableWord 64 0x0500000000000009 = some (.str 9) ∧ portWords 64 0x0500000000000009 =
      [0x0500000000000009, 0, 0] := by decide

/-! ### The commands, one step each, from a block of a given size, cursor, initialisation and stream -/

/-- A block that is not halted: size, cursor, whether INIT has run, and the delivered words. -/
def block (size : BufSize) (cur : Word32) (ready : Bool) (port : List Word64) : State :=
  { State.powerUp size Memory.empty 0 with
    table := ⟨0, ready⟩, initDone := ready, cur := cur, port := port }

/-- The next state of an outcome. -/
def after (o : Host.Outcome State Fault Refusal) : Option State :=
  match o with
  | .next t => some t
  | _ => none

/-- The written cells of BUF, CUR, RES and STATUS after a step. -/
def seen (s : State) : Option (List Host.Cell × Word32 × Word32 × Word32) :=
  (after (step s)).map (fun t => (t.buf.cells, t.cur, t.res, statusWord t))

theorem test_init_sets_status : seen (block 16 0 false [0x0100000000000000]) = some ([], 0, 0, 1) := by decide
theorem test_init_operand_faults : seen (block 16 0 false [0x0100000000000001]) = some ([], 0, 0, 0x202) := by decide
theorem test_char_at_last_byte :
    seen (block 16 15 false [0x0200000000000039]) = some ([(15, 0x39)], 16, 0, 0) := by decide
theorem test_char_value_7_is_no_digit :
    seen (block 16 0 false [0x0200000000000007]) = some ([], 0, 0, 0x402) := by decide
theorem test_u8_255 :
    seen (block 16 0 true [0x03000000000000FF]) = some ([(0, 0x32), (1, 0x35), (2, 0x35)], 3, 3, 1) := by decide
theorem test_u8_needs_3_bytes : seen (block 16 14 true [0x0300000000000005]) = some ([], 14, 0, 0x603) := by decide
theorem test_u16_1000 :
    seen (block 16 0 true [0x04000000000003E8]) =
      some ([(0, 0x31), (1, 0x30), (2, 0x30), (3, 0x30)], 4, 4, 1) := by decide
theorem test_u16_before_init : seen (block 16 0 false [0x040000000000002A]) = some ([], 0, 0, 0x502) := by decide
theorem test_str_12345 :
    seen (block 16 0 false [0x0500000000000005, 0x0000003534333231]) =
      some ([(0, 0x31), (1, 0x32), (2, 0x33), (3, 0x34), (4, 0x35)], 5, 0, 0) := by decide
theorem test_str_padding_faults :
    seen (block 16 0 false [0x0500000000000005, 0x0000013534333231]) = some ([], 0, 0, 0x802) := by decide
theorem test_hex_keeps_inner_zeros :
    seen (block 16 0 false [0x0600000000A0B000]) =
      some ([(0, 0x61), (1, 0x30), (2, 0x62), (3, 0x30), (4, 0x30), (5, 0x30)], 6, 6, 0) := by decide
theorem test_hex_needs_8_bytes : seen (block 16 9 false [0x0600000000000000]) = some ([], 9, 0, 0x602) := by decide
theorem test_hex2_deadbeef :
    seen (block 16 0 false [0x07000000DEADBEEF]) =
      some ([(0, 0x64), (1, 0x65), (2, 0x61), (3, 0x64), (4, 0x62), (5, 0x65), (6, 0x65), (7, 0x66)], 8, 8, 0) := by
  decide
theorem test_hex2_zero : seen (block 16 8 false [0x0700000000000000]) = some ([(8, 0x30)], 9, 1, 0) := by decide
theorem test_setcur_to_the_end : seen (block 16 0 false [0x0800000000000010]) = some ([], 16, 0, 0) := by decide
theorem test_setcur_past_the_end : seen (block 16 0 false [0x0800000000000011]) = some ([], 0, 0, 0x702) := by decide
theorem test_all_zero_word_faults : seen (block 16 0 false [0]) = some ([], 0, 0, 0x102) := by decide
theorem test_str_waits_for_its_payload :
    after (step (block 16 0 false [0x0500000000000005])) = some (block 16 0 false [0x0500000000000005]) := by decide
theorem test_empty_str_at_the_end :
    (after (step (block 16 16 false [0x0500000000000000]))).map (fun t => (t.cur, t.pos, t.fcause)) =
      some (16, 1, 0) := by decide
theorem test_fault_records_the_command :
    (after (step (block 16 0 false [0x040000000000002A, 0x0100000000000000]))).map
      (fun t => (t.fcmd, t.pos, t.port)) = some (0x040000000000002A, 1, [0x0100000000000000]) := by decide
theorem test_fetch_word_runs_after_reset :
    seen (State.reset.withFetchWord 64 0x0500000000000002) = some ([(0, 0), (1, 0)], 2, 0, 0) := by decide

/-! ### The assembler (R68): lexical forms that the examples of R70 do not show -/

theorem test_asm_comment_and_hex_number :
    assembleText [' ', 'U', '8', ' ', '0', 'x', 'F', 'f', ' ', ';', 'x'] = .ok [0x03000000000000FF] := by decide
theorem test_asm_escapes :
    assembleText ['S', 'T', 'R', ' ', '"', '\\', 'x', '4', '1', '\\', '"', '\\', '\\', '"'] =
      .ok [0x0500000000000003, 0x00000000005C2241] := by decide
theorem test_asm_char_code_assembles : assembleText ['C', 'H', 'A', 'R', ' ', '7'] = .ok [0x0200000000000007] := by
  decide
theorem test_asm_program :
    assembleProgram [['I', 'N', 'I', 'T'], [';'], ['U', '1', '6', ' ', '4', '2']] =
      .ok [0x0100000000000000, 0x040000000000002A] := by decide

/-! ### Witnesses: every statement's hypotheses are met, at the ends of their ranges -/

/-- A block with the invariant. -/
theorem block_inv_of_size (size : BufSize) (port : List Word64) (h : 1 ≤ size.val) : StateInv (block size 0 true port) :=
  ⟨h, by show Memory.empty.wf; decide, (fun _ h => nomatch h), Nat.zero_le _, by show 0 ≤ 8; decide, fun _ => rfl,
    fun _ => rfl, by show 0 ≤ 8; decide⟩

theorem block_inv (port : List Word64) : StateInv (block 16 0 true port) := block_inv_of_size 16 port (by decide)

/-- A halted block (NotInit). -/
def halted : State := { block 16 0 false [0x0100000000000000] with fcause := 5, fcmd := 0x040000000000002A }

theorem halted_inv : StateInv halted :=
  ⟨by decide, by decide, by decide, by decide, by decide, by decide, by decide, by decide⟩

theorem witness_EncodeOfDecodeIsTheWord : decode 0x08000000FFFFFFFF = .ok (.setcur 0xFFFFFFFF) := by decide

/-- The word meets the hypothesis of the opcode map and its clause for opcode `opc`. -/
def selects (w : Word64) (opc : Nat) : Bool := (w.toNat / 2 ^ 32) % 2 ^ 24 == 0 && w.toNat / 2 ^ 56 == opc

theorem witness_OpcodeMapSelectsTheCommand :
    selects 0x0100000000000000 0x01 ∧ selects 0x0200000000000037 0x02 ∧ selects 0x03000000000000FF 0x03 ∧
      selects 0x040000000000FFFF 0x04 ∧ selects 0x0500000000000005 0x05 ∧ selects 0x06000000FFFFFFFF 0x06 ∧
      selects 0x0700000000000000 0x07 ∧ selects 0x0800000000000010 0x08 ∧ selects 0x00000000FFFFFFFF 0x00 ∧
      selects 0x0900000000000000 0x09 ∧ selects 0xFF00000000000000 0xFF := by decide

theorem witness_IllFormedOperandsFault :
    (Instr.init 0x80000000).wf = false ∧ (Instr.char 0x100).wf = false ∧ (Instr.u8 0x100).wf = false ∧
      (Instr.u16 0x10000).wf = false := by decide

theorem witness_StepRunsTheDecodedCommand :
    (block 16 0 false [0x0600000000000001]).fcause = 0 ∧
      (block 16 0 false [0x0600000000000001]).port = 0x0600000000000001 :: [] ∧
      decode 0x0600000000000001 = .ok (.hex 1) := by decide

theorem witness_IllegalWordsFault :
    (block 16 0 false [0x00FFFFFFFFFFFFFF, 7]).fcause = 0 ∧
      (0x00FFFFFFFFFFFFFF : Word64).toNat / 2 ^ 56 = 0x00 ∧ 0x09 ≤ (0x0900000000000000 : Word64).toNat / 2 ^ 56 ∧
      (0x01 ≤ (0x0100000100000000 : Word64).toNat / 2 ^ 56 ∧
        ((0x0100000100000000 : Word64).toNat / 2 ^ 32) % 2 ^ 24 ≠ 0) ∧
      ((0x0880000000000000 : Word64).toNat / 2 ^ 56 ≤ 0x08 ∧
        ((0x0880000000000000 : Word64).toNat / 2 ^ 32) % 2 ^ 24 ≠ 0) := by decide

theorem witness_HaltedBlockTakesNoWords : halted.fcause ≠ 0 ∧ 15 < halted.bufSize.val := by decide

theorem witness_WaitingBlockDoesNotChange :
    (block 16 0 false []).fcause = 0 ∧ (block 16 0 false []).port = [] ∧
      (decode 0x0500000000000010 = .ok (.str 16) ∧ 0 + 16 ≤ (block 16 0 false []).bufSize.val ∧
        [(7 : Word64)].length < (16 + 7) / 8) ∧
      (decode 0x0500000000000011 = .ok (.str 17) ∧ (block 16 0 false []).bufSize.val < 0 + 17) ∧
      (decode 0x0500000000000010 = .ok (.str 16) ∧ (16 + 7) / 8 ≤ [(7 : Word64), 7].length) := by decide

theorem witness_CompletedCommandsTakeTheirLength :
    hasStep (block 16 0 false [0x0500000000000001, 0x39]) = true ∧
      (after (step (block 16 0 false [0x0500000000000001, 0x39]))).map (fun t => t.fcause) = some 0 ∧
      hasStep (block 16 0 false [0x0700000000000000]) = true ∧
      (after (step (block 16 0 false [0x0700000000000000]))).map (fun t => t.fcause) = some 0 := by decide

theorem witness_LaterWordsDoNotDisturbACommand :
    hasStep (block 16 0 false [0x0500000000000001, 0x39]) = true ∧
      (after (step (block 16 0 false [0x0500000000000001, 0x39]))).isSome = true := by decide

theorem witness_FaultEntryIsPrecise :
    (block 16 0 false [0x040000000000002A]).fcause = 0 ∧
      (after (step (block 16 0 false [0x040000000000002A]))).map (fun t => t.fcause) = some 5 ∧
      (after (step (block 16 0 false [0x0500000000000009, 0, 0x100]))).map (fun t => (t.fcause, t.pos)) =
        some (8, 3) := by decide

theorem witness_FaultRecordStaysConsistent :
    faultRecordOk halted ∧ faultRecordOk (block 16 0 false [0]) ∧
      systemStep .block halted = .next (halted, .nothing) :=
  ⟨.inr (by decide), .inl (by decide), rfl⟩

theorem witness_FirstFaultIsKept :
    halted.fcause ≠ 0 ∧ Event.host (.writeBuf 15 1) ≠ .host .reset ∧
      systemStep (.host (.writeBuf 15 1)) halted = .next (hostWrite 15 1 halted, .nothing) :=
  ⟨by decide, by decide, rfl⟩

theorem witness_StepKeepsTheInvariant :
    StateInv (block 16 0 true [0x040000000000FFFF]) ∧
      (after (step (block 16 0 true [0x040000000000FFFF]))).isSome = true :=
  ⟨block_inv _, by decide⟩

theorem witness_HostActionsKeepTheInvariant :
    StateInv halted ∧ hostStep (.writeBuf 15 0xFF) halted = .next (hostWrite 15 0xFF halted, .nothing) ∧
      hostStep .reset halted = .next (resetBlock halted, .nothing) :=
  ⟨halted_inv, rfl, rfl⟩

theorem witness_PowerUpHasTheInvariant :
    (1 ≤ (1 : BufSize).val ∧ (Memory.mk [(0, 7)]).wf ∧ ∀ c ∈ [((0 : Nat), (7 : Byte))], c.1 < (1 : BufSize).val) ∧
      1 ≤ (4294967295 : BufSize).val := by decide

theorem witness_StepWritesOnlyAtTheCursor :
    StateInv (block 16 0 true [0x0300000000000005]) ∧
      (after (step (block 16 0 true [0x0300000000000005]))).map (fun t => decide (t.cur.toNat ≤ 1)) = some true :=
  ⟨block_inv _, by decide⟩

theorem witness_AccessMatrix :
    (∀ i ∈ [Instr.init 0, .char 0x30, .u8 0, .u16 0, .str 0, .hex 0, .hex2 0, .setcur 16],
      (after (exec i (block 16 0 true [0]))).isSome = true) := by decide

theorem witness_OnlyInitSetsInitDone :
    (block 16 0 false [0x0100000000000000]).initDone = false ∧
      (after (step (block 16 0 false [0x0100000000000000]))).map (fun t => t.initDone) = some true ∧
      (block 16 0 true []).initDone = true ∧
      systemStep (.host .reset) (block 16 0 true []) = .next (resetBlock (block 16 0 true []), .nothing) ∧
      (resetBlock (block 16 0 true [])).initDone = false :=
  ⟨by decide, by decide, by decide, rfl, by decide⟩

theorem witness_FreeTableContentsAreNeverRead : StateInv (block 16 0 true [0x0300000000000005]) := block_inv _

theorem witness_InitPopulatesTheTable :
    (1 : Word32) ≠ 0 ∧ (0 : Word32) = 0 ∧ (9 : Word16).toNat < 10 ∧
      (10 ≤ (10 : Word16).toNat ∧ (99 : Word16).toNat < 100) ∧ (100 ≤ (100 : Word16).toNat ∧ (999 : Word16).toNat < 1000) ∧
      (1000 ≤ (1000 : Word16).toNat ∧ (9999 : Word16).toNat < 10000) ∧ 10000 ≤ (10000 : Word16).toNat ∧
      4 < (tblLen (buildTable ⟨0, false⟩) 65535).toNat := by decide

theorem witness_RepeatedInitChangesNothing :
    StateInv (block 16 0 true [0x0100000000000000]) ∧ (block 16 0 true [0x0100000000000000]).initDone = true :=
  ⟨block_inv _, by decide⟩

theorem witness_InitLoopBuildsTheTable : 0 < 65536 ∧ 65535 < 65536 := by decide

theorem witness_DecimalTextParsesBack : 0 < 65536 ∧ 65535 < 65536 ∧ 65535 ≠ 0 := by decide

theorem witness_CharWritesOneDigit :
    256 ≤ (0x100 : Word32).toNat ∧ ((0x2F : Word32).toNat < 256 ∧ (0x2F : Word32).toNat < 0x30) ∧
      ((0xFF : Word32).toNat < 256 ∧ 0x39 < (0x3A : Word32).toNat) ∧
      (0x30 ≤ (0x30 : Word32).toNat ∧ (0x39 : Word32).toNat ≤ 0x39) ∧
      (block 16 16 false []).bufSize.val < (block 16 16 false []).cur.toNat + 1 ∧
      (block 16 15 false []).cur.toNat + 1 ≤ (block 16 15 false []).bufSize.val := by decide

theorem witness_U8WritesDecimal :
    256 ≤ (0x100 : Word32).toNat ∧ (0xFF : Word32).toNat < 256 ∧ (block 16 0 false []).initDone = false ∧
      ((block 16 14 true []).initDone = true ∧
        (block 16 14 true []).bufSize.val < (block 16 14 true []).cur.toNat + 3) ∧
      ((block 16 13 true []).initDone = true ∧ (block 16 13 true []).table.built = true ∧
        (block 16 13 true []).cur.toNat + 3 ≤ (block 16 13 true []).bufSize.val) := by decide

theorem witness_U16WritesDecimal :
    65536 ≤ (0x10000 : Word32).toNat ∧ (0xFFFF : Word32).toNat < 65536 ∧ (block 16 0 false []).initDone = false ∧
      ((block 16 12 true []).initDone = true ∧
        (block 16 12 true []).bufSize.val < (block 16 12 true []).cur.toNat + 5) ∧
      ((block 16 11 true []).initDone = true ∧ (block 16 11 true []).table.built = true ∧
        (block 16 11 true []).cur.toNat + 5 ≤ (block 16 11 true []).bufSize.val) := by decide

theorem witness_StrCopiesTheLiteral :
    (block 16 12 false [0x0500000000000005]).bufSize.val < 12 + (5 : Word32).toNat ∧
      (12 + (4 : Word32).toNat ≤ (block 16 12 false [0x0500000000000004]).bufSize.val ∧
        (block 16 12 false [0x0500000000000004]).port.length < 1 + (4 + 7) / 8) ∧
      (1 + (4 + 7) / 8 ≤ (block 16 12 false [0x0500000000000004, 0x0100000034333231]).port.length ∧
        4 ≤ 7 ∧ 7 < 8 * ((4 + 7) / 8) ∧
        ((block 16 12 false [0x0500000000000004, 0x0100000034333231]).port.getD (1 + 7 / 8) 0).extractLsb'
          (8 * (7 % 8)) 8 ≠ 0) ∧
      (∀ k, 4 ≤ k → k < 8 →
        ((block 16 12 false [0x0500000000000004, 0x0000000034333231]).port.getD (1 + k / 8) 0).extractLsb'
          (8 * (k % 8)) 8 = 0) := by
  refine ⟨by decide, by decide, by decide, fun k h1 h2 => ?_⟩
  obtain rfl | rfl | rfl | rfl : k = 4 ∨ k = 5 ∨ k = 6 ∨ k = 7 := by omega
  all_goals decide

theorem witness_U8AndU16Agree :
    (0xFF : Word32).toNat < 256 ∧ (block 16 11 true []).initDone = true ∧
      (block 16 11 true []).cur.toNat + 5 ≤ (block 16 11 true []).bufSize.val := by decide

theorem witness_HexWritesHexText :
    (block 16 9 false []).bufSize.val < (block 16 9 false []).cur.toNat + 8 ∧
      (block 16 8 false []).cur.toNat + 8 ≤ (block 16 8 false []).bufSize.val := by decide

theorem witness_Hex2WritesHexText :
    (block 8 1 true []).bufSize.val < (block 8 1 true []).cur.toNat + 8 ∧
      (block 8 0 true []).cur.toNat + 8 ≤ (block 8 0 true []).bufSize.val := by decide

theorem witness_HexAndHex2AreEquivalent :
    (block 16 8 false []).cur.toNat + 8 ≤ (block 16 8 false []).bufSize.val := by decide

theorem witness_NhexIsTheLeastLength :
    (1 ≤ 8 ∧ (0xFFFFFFFF : Word32).toNat < 16 ^ 8) ∧ 7 < nhex 0xFFFFFFFF := by decide

theorem witness_HexTextParsesBack : (1 : Word32) ≠ 0 ∧ (-2147483648 : Int) ≤ -2147483648 ∧ (-1 : Int) < 0 := by decide

theorem witness_HexRomContents : (9 : Nibble).toNat < 10 ∧ 10 ≤ (10 : Nibble).toNat := by decide

theorem witness_SetcurLoadsTheCursor :
    (block 16 0 false []).bufSize.val < (17 : Word32).toNat ∧ (16 : Word32).toNat ≤ (block 16 0 false []).bufSize.val := by
  decide

/-- A CHAR, a STR of two bytes and a U8, which a buffer of 6 bytes has room for without 8 bytes for each. -/
def conversions : List Conversion := [⟨.char 0x37, []⟩, ⟨.str 2, [0x6261]⟩, ⟨.u8 255, []⟩]

theorem witness_ConversionsWriteBackToBack :
    StateInv (block 6 0 true (conversions.flatMap Conversion.words ++ [0])) ∧
      (block 6 0 true (conversions.flatMap Conversion.words ++ [0])).fcause = 0 ∧
      (∀ c ∈ conversions, c.accepted (block 6 0 true []).initDone) ∧
      roomFor (block 6 0 true []).bufSize.val (block 6 0 true []).cur.toNat conversions := by
  refine ⟨block_inv_of_size 6 _ (by decide), by decide, ?_, ?_⟩
  · intro c hc
    simp only [conversions, List.mem_cons, List.not_mem_nil, or_false] at hc
    rcases hc with rfl | rfl | rfl
    · exact ⟨rfl, by decide, by decide⟩
    · refine ⟨by decide, fun k h1 h2 => ?_⟩
      have h3 : 2 ≤ k := h1
      have h4 : k < 8 := h2
      interval_cases k <;> decide
    · exact ⟨rfl, by decide, rfl⟩
  · refine ⟨by decide, by decide, by decide, trivial⟩

theorem witness_CommandLengthFollowsTheOpcode :
    (0x0100000100000000 : Word64).toNat / 2 ^ 56 = 1 ∧ (0x0800000000000000 : Word64).toNat / 2 ^ 56 = 8 ∧
      (0x0500000100000009 : Word64).toNat / 2 ^ 56 = 5 ∧ (0 : Word64).toNat / 2 ^ 56 = 0 ∧
      (0x0900000000000000 : Word64).toNat / 2 ^ 56 = 9 ∧ (block 16 0 false [0]).fcause = 0 := by decide

theorem witness_RegisterPortReads : 5 ≤ 5 := by decide

theorem witness_HostAccessesBuf :
    15 < (block 16 0 false []).bufSize.val ∧ idle (block 16 0 false []) = true ∧
      idle (block 16 0 false [0x0500000000000001]) = true ∧ idle halted = true ∧ readByte (hostWrite 15 7 (block 16 0 false [])).buf 15 = some 7 := by decide

theorem witness_HostAccessOutsideBufStops : (block 16 0 false []).bufSize.val ≤ 16 := by decide

theorem witness_HostAccessNeedsAnIdleBlock :
    idle (block 16 0 false [0x0600000000000000]) = false ∧ 15 < (block 16 0 false []).bufSize.val := by decide

theorem witness_IdleMeansNoCompleteCommand :
    idle (block 16 0 false [0x0500000000000010, 7]) = true ∧
      decode 0x0500000000000010 = .ok (.str 16) ∧ [(7 : Word64)].length < (16 + 7) / 8 ∧
      idle (block 16 1 false [0x0500000000000010]) = false ∧ idle (block 16 0 false [0x0500000100000008]) = false := by
  decide

theorem witness_ResetClearsTheBlock : decode 0x0500000000000000 = .ok (.str 0) := by decide

theorem witness_ResetRequiresInitAgain : (0xFFFF : Word32).toNat < 65536 ∧ (0xFF : Word32).toNat < 256 := by decide

theorem witness_PayloadPackingRoundTrips : [(0x41 : Byte)].length ≤ 1 := by decide

theorem test_assembler_semicolon_in_text :
    assembleText ['S', 'T', 'R', ' ', '"', ';', '"', ' ', ';', 'x'] = .ok [0x0500000000000001, 0x3B] := by decide

theorem witness_AssembledStrWritesItsText :
    assemble (.str [0x37, 0x37]) = .ok [0x0500000000000002, 0x3737] ∧
      (block 16 14 false ([0x0500000000000002, 0x3737] ++ [0])).fcause = 0 ∧
      (block 16 14 false []).cur.toNat + [(0x37 : Byte), 0x37].length ≤ (block 16 14 false []).bufSize.val := by decide

theorem witness_AssembledLinesAreWellFormed :
    assemble (.hex (-1)) = .ok [0x06000000FFFFFFFF] ∧ assemble (.str []) = .ok [0x0500000000000000] := by decide

end Sys2Proof.Tests
end

section
/-!
PROOFS. Facts the proofs about the state (10_state.md) share: the word of a decoded command, the length of a table
entry, and one step of the block told through `exec`.
-/

namespace Sys2Proof.Machine

/-- A word whose RSV is 0 is put together from its opcode and its operand (30_encoding.md R60). -/
theorem append_fields {w : Word64} (hr : rsvField w = 0) : opcField w ++ (0 : BitVec 24) ++ opdField w = w := by
  have hw := w.isLt
  have hr' : (w.toNat / 4294967296) % 16777216 = 0 := by
    simpa [rsvField, Nat.shiftRight_eq_div_pow] using congrArg BitVec.toNat hr
  apply BitVec.eq_of_toNat_eq
  rw [Laws.toNat_fields]
  simp only [opcField, opdField, BitVec.extractLsb'_toNat, Nat.shiftRight_eq_div_pow]
  omega

/-- A legal command word is the encoding of its command (30_encoding.md R65). -/
theorem encode_of_decode {w : Word64} {i : Instr} (h : decode w = .ok i) : encode i = w := by
  obtain ⟨_, hj, rfl, hr⟩ := decode_eq_ok h
  obtain ⟨hopc, hopd⟩ := instrOf_eq_some hj
  rw [encode, hopc, hopd, append_fields hr]

@[simp] theorem tblEntry_length (t : DigitTable) (v : Word16) : (tblEntry t v).length = (tblLen t v).toNat := by
  simp [tblEntry]

/-- The table index of U8 is an 8-bit value (41_decimal.md R92). -/
theorem u8Index_lt (opd : Word32) : (u8Index opd).toNat < 256 := by
  have := (opd8 opd).isLt
  simp only [u8Index, BitVec.toNat_setWidth]
  omega

theorem step_of_fetch_command {s : State} {i : Instr} (h : fetch s = .command i) : step s = exec i s := by
  rw [step, h]

/-- Everything a step can be: idle, the fault of an illegal word, or the run of the command at the head of the stream. -/
theorem step_cases (s : State) :
    step s = .next s ∨
    (∃ w rest e, s.port = w :: rest ∧ decode w = .error e ∧ step s = .next (takeFault (decodeFault e) w 1 s)) ∨
    (∃ w rest i, s.port = w :: rest ∧ decode w = .ok i ∧ step s = exec i s) := by
  rcases fetch_cases s with ⟨hf, -⟩ | ⟨w, rest, e, -, hp, hd, hf⟩ | ⟨w, rest, i, -, hp, hd, hf⟩
  · exact .inl (step_of_fetch_nothing hf)
  · exact .inr (.inl ⟨w, rest, e, hp, hd, step_of_fetch_illegal hf⟩)
  · exact .inr (.inr ⟨w, rest, i, hp, hd, step_of_fetch_command hf⟩)

end Sys2Proof.Machine
end

section
/-!
PROOFS. The state invariant (10_state.md R21, R22, R24 to R27): each shared operation keeps it, so a command keeps it,
so a step keeps it.
-/

namespace Sys2Proof.Proofs

open Sys2Proof.Machine Sys2Proof.Safety

section Operations
variable {s : State}

theorem consume_keeps_inv (h : StateInv s) (n : Nat) : StateInv (consume n s) :=
  ⟨h.bufSize_pos, h.buf_wf, h.buf_inside, h.cur_le, h.fcause_legal, h.table_built, h.fcmd_clear, h.res_le⟩

/-- A write at the cursor keeps the invariant where the bytes fit (20_memory.md R44, R45). -/
theorem emit_keeps_inv (h : StateInv s) {out : List Byte} (hfit : s.cur.toNat + out.length ≤ s.bufSize.val) :
    StateInv (emit out s) where
  bufSize_pos := h.bufSize_pos
  buf_wf := memWrite_wf out h.buf_wf _
  buf_inside c hc := by
    rcases memWrite_inside hc with hrun | hold
    · exact lt_of_lt_of_le hrun.2 hfit
    · exact h.buf_inside c hold
  cur_le := by rw [emit_cur_toNat hfit]; exact hfit
  fcause_legal := h.fcause_legal
  table_built := h.table_built
  fcmd_clear := h.fcmd_clear
  res_le := h.res_le

theorem setRes_keeps_inv (h : StateInv s) {n : Nat} (hn : n ≤ 8) : StateInv (setRes n s) where
  bufSize_pos := h.bufSize_pos
  buf_wf := h.buf_wf
  buf_inside := h.buf_inside
  cur_le := h.cur_le
  fcause_legal := h.fcause_legal
  table_built := h.table_built
  fcmd_clear := h.fcmd_clear
  res_le := by simp only [setRes_res, BitVec.toNat_ofNat]; omega

theorem faultCode_le (f : FaultCause) : (faultCode f).toNat ≤ 8 := by cases f <;> decide

theorem faultCode_ne_zero (f : FaultCause) : faultCode f ≠ 0 := by cases f <;> decide

theorem takeFault_keeps_inv (h : StateInv s) (f : FaultCause) (w : Word64) (n : Nat) :
    StateInv (takeFault f w n s) where
  bufSize_pos := h.bufSize_pos
  buf_wf := h.buf_wf
  buf_inside := h.buf_inside
  cur_le := h.cur_le
  fcause_legal := faultCode_le f
  table_built := h.table_built
  fcmd_clear h0 := absurd h0 (faultCode_ne_zero f)
  res_le := h.res_le

theorem initTable_keeps_inv (h : StateInv s) : StateInv { s with table := buildTable s.table, initDone := true } :=
  ⟨h.bufSize_pos, h.buf_wf, h.buf_inside, h.cur_le, h.fcause_legal, fun _ => rfl, h.fcmd_clear, h.res_le⟩

theorem setCur_keeps_inv (h : StateInv s) {c : Word32} (hc : c.toNat ≤ s.bufSize.val) :
    StateInv { s with cur := c } :=
  ⟨h.bufSize_pos, h.buf_wf, h.buf_inside, hc, h.fcause_legal, h.table_built, h.fcmd_clear, h.res_le⟩

/-- The end of U8 and U16 keeps the invariant where the table entry fits (41_decimal.md R92, R93). -/
theorem emitEntry_keeps_inv (h : StateInv s) {v : Word16} (hready : s.initDone = true)
    (hfit : s.cur.toNat + ndec v.toNat ≤ s.bufSize.val) : StateInv (emitEntry v s) := by
  have hlen : (tblLen s.table v).toNat = ndec v.toNat := tblLen_built (h.table_built hready) v
  have hndec := ndec_le v.toNat
  exact setRes_keeps_inv (emit_keeps_inv h (by rw [tblEntry_length, hlen]; exact hfit)) (by omega)

/-- The end of HEX and HEX2 keeps the invariant where 8 bytes fit (42_hex.md R112, R113). -/
theorem emitHex_keeps_inv (h : StateInv s) {v : Word32} (hfit : s.cur.toNat + 8 ≤ s.bufSize.val) :
    StateInv (emitHex v s) := by
  have hnhex := nhex_le v
  exact setRes_keeps_inv (emit_keeps_inv h (by rw [hexstr_length]; omega)) hnhex

end Operations

/-- A command keeps the invariant: what it checks before its writes is what its writes need (20_memory.md R44). -/
theorem exec_keeps_inv {i : Instr} {s t : State} (h : StateInv s) (ht : exec i s = .next t) : StateInv t := by
  rcases exec_cases i s with ⟨f, n, hx, -⟩ | ⟨hx, -⟩ | ⟨hx, -⟩ | ⟨c, -, hc, hx⟩ | ⟨out, n, hx, hfit⟩ |
    ⟨v, hx, hready, hfit⟩ | ⟨v, hx, hfit, -⟩
  · cases hx.symm.trans ht
    exact takeFault_keeps_inv h f _ n
  · cases hx.symm.trans ht
    exact h
  · cases hx.symm.trans ht
    exact initTable_keeps_inv (consume_keeps_inv h 1)
  · cases hx.symm.trans ht
    exact setCur_keeps_inv (consume_keeps_inv h 1) hc
  · cases hx.symm.trans ht
    have hroom : s.cur.toNat + out.length ≤ s.bufSize.val := by
      rcases hfit with ⟨opd, -, -, rfl, hroom⟩ | ⟨opd, -, -, -, rfl, hroom⟩
      · exact hroom
      · rwa [literal_length]
    exact emit_keeps_inv (consume_keeps_inv h n) hroom
  · cases hx.symm.trans ht
    have hroom : s.cur.toNat + ndec v.toNat ≤ s.bufSize.val := by
      rcases hfit with ⟨opd, -, rfl, -, hroom⟩ | ⟨opd, -, -, -, hroom⟩
      · have := ndec_le_three (u8Index_lt opd)
        omega
      · have := ndec_le v.toNat
        omega
    exact emitEntry_keeps_inv (consume_keeps_inv h 1) hready hroom
  · cases hx.symm.trans ht
    exact emitHex_keeps_inv (consume_keeps_inv h 1) hfit

/-- Settles O17, from the lemmas that every operation of a step keeps the invariant. -/
theorem stepKeepsTheInvariant : Obligations.StepKeepsTheInvariant := by
  intro s t h ht
  rcases step_cases s with hs | ⟨w, -, e, -, -, hs⟩ | ⟨-, -, i, -, -, hs⟩
  · cases hs.symm.trans ht
    exact h
  · cases hs.symm.trans ht
    exact takeFault_keeps_inv h _ w 1
  · exact exec_keeps_inv h (hs.symm.trans ht)

theorem powerUp_inv {n : BufSize} {m : Memory} (seed : Nat) (hn : 1 ≤ n.val) (hm : m.wf)
    (hin : ∀ c ∈ m.cells, c.1 < n.val) : StateInv (State.powerUp n m seed) where
  bufSize_pos := hn
  buf_wf := hm
  buf_inside := hin
  cur_le := Nat.zero_le _
  fcause_legal := Nat.zero_le _
  table_built := nofun
  fcmd_clear _ := rfl
  res_le := Nat.zero_le _

/-- Settles O19: every register of the reset column is 0 and INIT_DONE is 0; `State.reset` has an unwritten BUF. -/
theorem powerUpHasTheInvariant : Obligations.PowerUpHasTheInvariant :=
  ⟨fun _ _ seed hn hm hin => powerUp_inv seed hn hm hin, powerUp_inv 0 (by decide) empty_wf nofun⟩

end Sys2Proof.Proofs
end

section
/-!
PROOFS. What a command and an event of the system may change (10_state.md R28, R30, R33, R34).
-/

namespace Sys2Proof.Proofs

open Sys2Proof.Machine Sys2Proof.Safety

/-- A command of a stream that is not empty answers a next state in which it has taken words that were there. -/
theorem exec_takes_words (i : Instr) {s : State} (hport : 1 ≤ s.port.length) :
    ∃ t n, exec i s = .next t ∧ n ≤ s.port.length ∧ t.port = s.port.drop n ∧ t.pos = s.pos + n ∧
      t.bufSize = s.bufSize := by
  rcases exec_cases i s with ⟨f, n, hx, -, hn⟩ | ⟨hx, -⟩ | ⟨hx, -⟩ | ⟨c, -, -, hx⟩ | ⟨out, n, hx, hn⟩ |
    ⟨v, hx, -⟩ | ⟨v, hx, -⟩
  · have hlen : n ≤ s.port.length := by
      rcases hn with ⟨-, rfl⟩ | ⟨-, opd, -, -, hlen⟩
      · exact hport
      · exact hlen
    exact ⟨_, n, hx, hlen, rfl, rfl, rfl⟩
  · exact ⟨s, 0, hx, Nat.zero_le _, rfl, rfl, rfl⟩
  · exact ⟨_, 1, hx, hport, rfl, rfl, rfl⟩
  · exact ⟨_, 1, hx, hport, rfl, rfl, rfl⟩
  · have hlen : n ≤ s.port.length := by
      rcases hn with ⟨opd, -, rfl, -⟩ | ⟨opd, -, -, hlen, -⟩
      · exact hport
      · exact hlen
    exact ⟨_, n, hx, hlen, rfl, rfl, rfl⟩
  · exact ⟨_, 1, hx, hport, rfl, rfl, rfl⟩
  · exact ⟨_, 1, hx, hport, rfl, rfl, rfl⟩

/-- Settles O10: an idle step takes no word, an illegal word is taken alone, a command takes its own words. -/
theorem everyStepAnswersNext : Obligations.EveryStepAnswersNext := by
  intro s
  rcases step_cases s with hs | ⟨w, rest, e, hp, -, hs⟩ | ⟨w, rest, i, hp, -, hs⟩
  · exact ⟨s, 0, hs, Nat.zero_le _, rfl, rfl, rfl⟩
  · exact ⟨_, 1, hs, by simp [hp], rfl, rfl, rfl⟩
  · rw [hs]
    exact exec_takes_words i (by simp [hp])

/-- Settles O21, one case for each thing a command can do: the cases that write a field name the commands they
belong to. -/
theorem accessMatrix : Obligations.AccessMatrix := by
  intro i s t ht
  rcases exec_cases i s with ⟨f, n, hx, -⟩ | ⟨hx, -⟩ | ⟨hx, rfl⟩ | ⟨c, rfl, -, hx⟩ | ⟨out, n, hx, hi⟩ |
    ⟨v, hx, -, hi⟩ | ⟨v, hx, -, hi⟩
  · cases hx.symm.trans ht
    simp
  · cases hx.symm.trans ht
    simp
  · cases hx.symm.trans ht
    simp
  · cases hx.symm.trans ht
    simp
  · cases hx.symm.trans ht
    rcases hi with ⟨opd, rfl, -⟩ | ⟨opd, rfl, -⟩ <;> simp
  · cases hx.symm.trans ht
    rcases hi with ⟨opd, rfl, -⟩ | ⟨opd, rfl, -⟩ <;> simp [emitEntry]
  · cases hx.symm.trans ht
    rcases hi with rfl | rfl <;> simp [emitHex]

theorem execInit_initDone {opd : Word32} {s t : State} (ht : execInit opd s = .next t) :
    t.initDone = s.initDone ∨ (opd = 0 ∧ t.initDone = true) := by
  rw [execInit] at ht
  split_ifs at ht with h
  · cases ht
    exact .inl rfl
  · cases ht
    exact .inr ⟨not_not.1 h, rfl⟩

/-- A command keeps INIT_DONE, or it is a completed INIT. -/
theorem exec_initDone {i : Instr} {s t : State} (ht : exec i s = .next t) :
    t.initDone = s.initDone ∨ (i = .init 0 ∧ t.initDone = true) := by
  by_cases hi : ∃ opd, i = .init opd
  · obtain ⟨opd, rfl⟩ := hi
    exact (execInit_initDone ht).imp_right fun ⟨h0, hset⟩ => ⟨congrArg Instr.init h0, hset⟩
  · obtain ⟨-, hframe, -⟩ := accessMatrix i s t ht
    exact .inl (hframe (not_exists.1 hi)).2

/-- A step keeps INIT_DONE, or the INIT word stands at the head of the stream and sets it (10_state.md R34). -/
theorem step_initDone {s t : State} (ht : step s = .next t) :
    t.initDone = s.initDone ∨ ((∃ rest, s.port = 0x0100000000000000 :: rest) ∧ t.initDone = true) := by
  rcases step_cases s with hs | ⟨w, rest, e, -, -, hs⟩ | ⟨w, rest, i, hp, hd, hs⟩
  · cases hs.symm.trans ht
    exact .inl rfl
  · cases hs.symm.trans ht
    exact .inl rfl
  · rcases exec_initDone (hs.symm.trans ht) with hkept | ⟨rfl, hset⟩
    · exact .inl hkept
    · have hw : w = 0x0100000000000000 := (encode_of_decode hd).symm
      exact .inr ⟨⟨rest, hw ▸ hp⟩, hset⟩

/-- Of the host's actions only reset changes INIT_DONE (10_state.md R34). -/
theorem hostStep_initDone {h : HostAction} {s t : State} {r : HostReply} (ht : hostStep h s = .next (t, r)) :
    t.initDone = s.initDone ∨ (h = .reset ∧ t.initDone = false) := by
  rcases hostStep_cases ht with ⟨w, -, rfl⟩ | ⟨rfl, -⟩ | ⟨a, b, -, -, -, rfl⟩ | ⟨rfl, rfl⟩
  · exact .inl rfl
  · exact .inl rfl
  · exact .inl rfl
  · exact .inr ⟨rfl, rfl⟩

/-- An answered event of the block is a step. -/
theorem step_of_systemStep_block {s t : State} {r : HostReply} (ht : systemStep .block s = .next (t, r)) :
    step s = .next t := by
  rw [systemStep] at ht
  split at ht
  · rename_i u hu
    cases ht
    exact hu
  · cases ht
  · cases ht

/-- Settles O22: the block's steps only set INIT_DONE, with the INIT word; the host's actions only clear it, with
reset. -/
theorem onlyInitSetsInitDone : Obligations.OnlyInitSetsInitDone := by
  intro e s t r ht
  cases e with
  | block =>
    rcases step_initDone (step_of_systemStep_block ht) with hkept | ⟨hword, hset⟩
    · exact ⟨fun h0 h1 => by simp_all, fun h0 h1 => by simp_all⟩
    · exact ⟨fun _ _ => ⟨rfl, hword⟩, fun _ h1 => by simp_all⟩
  | host h =>
    rcases hostStep_initDone ht with hkept | ⟨rfl, hclear⟩
    · exact ⟨fun h0 h1 => by simp_all, fun h0 h1 => by simp_all⟩
    · exact ⟨fun _ h1 => by simp_all, fun _ _ => rfl⟩

end Sys2Proof.Proofs
end

section
/-!
PROOFS. What the block does not read (10_state.md R22, R27, R31; 20_memory.md R51). A step is settled by the part of the
state that the port and the checks see; what it then does to the rest is one of seven effects. Two blocks that agree on
that part make the same effect, each on its own BUF and its own table.
-/

namespace Sys2Proof.Proofs

open Sys2Proof.Machine Sys2Proof.Safety

/-- What a step does once its checks are settled. -/
inductive Effect where
  | idle
  | fault (f : FaultCause) (w : Word64) (n : Nat)
  | initTable
  | setCursor (c : Word32)
  | write (out : List Byte) (n : Nat)
  | writeEntry (v : Word16)
  | writeHex (v : Word32)

/-- The effect on a state. -/
def Effect.apply : Effect → State → State
  | .idle, s => s
  | .fault f w n, s => takeFault f w n s
  | .initTable, s => { consume 1 s with table := buildTable s.table, initDone := true }
  | .setCursor c, s => { consume 1 s with cur := c }
  | .write out n, s => emit out (consume n s)
  | .writeEntry v, s => emitEntry v (consume 1 s)
  | .writeHex v, s => emitHex v (consume 1 s)

/-- The bytes that an effect writes to BUF, from CUR on. -/
def Effect.written : Effect → DigitTable → List Byte
  | .write out _, _ => out
  | .writeEntry v, t => tblEntry t v
  | .writeHex v, _ => hexstr v
  | _, _ => []

/-- The effect reads the digit table: it is the end of U8 or U16. -/
def Effect.readsTable : Effect → Prop
  | .writeEntry _ => True
  | _ => False

/-- The two blocks agree on the state that the port and the checks of a command see. -/
structure SameControl (s s' : State) : Prop where
  bufSize : s'.bufSize = s.bufSize
  initDone : s'.initDone = s.initDone
  fcause : s'.fcause = s.fcause
  cur : s'.cur = s.cur
  port : s'.port = s.port

/-- Every block that agrees with `s` on the control state answers `f` with one and the same effect, which reads the table
only where INIT_DONE is 1. -/
def Settled (s : State) (f : State → Host.Outcome State Fault Refusal) : Prop :=
  ∃ e : Effect, (e.readsTable → s.initDone = true) ∧ ∀ s', SameControl s s' → f s' = .next (e.apply s')

section Settled
variable {s : State} {f g : State → Host.Outcome State Fault Refusal}

theorem settled_effect (e : Effect) (he : ¬ e.readsTable) : Settled s (fun s' => .next (e.apply s')) :=
  ⟨e, fun h => absurd h he, fun _ _ => rfl⟩

theorem settled_raise (c : FaultCause) (i : Instr) (n : Nat) : Settled s (raise c i n) :=
  settled_effect (.fault c (encode i) n) id

/-- A check that sees the control state only is settled where both its branches are. -/
theorem settled_ite {c : State → Prop} [DecidablePred c] (hc : ∀ s', SameControl s s' → (c s' ↔ c s))
    (hf : c s → Settled s f) (hg : ¬ c s → Settled s g) : Settled s (fun s' => if c s' then f s' else g s') := by
  by_cases h : c s
  · obtain ⟨e, he, hstep⟩ := hf h
    exact ⟨e, he, fun s' hs => (if_pos ((hc s' hs).2 h)).trans (hstep s' hs)⟩
  · obtain ⟨e, he, hstep⟩ := hg h
    exact ⟨e, he, fun s' hs => (if_neg (mt (hc s' hs).1 h)).trans (hstep s' hs)⟩

end Settled

section Checks
variable {s s' : State}

theorem sameControl_refl (s : State) : SameControl s s := ⟨rfl, rfl, rfl, rfl, rfl⟩

theorem sameControl_withBuf (s : State) (m : Memory) : SameControl s { s with buf := m } := ⟨rfl, rfl, rfl, rfl, rfl⟩

theorem sameControl_withTable (s : State) (t : DigitTable) : SameControl s { s with table := t } :=
  ⟨rfl, rfl, rfl, rfl, rfl⟩

theorem SameControl.capacityOK (h : SameControl s s') (m : Nat) : capacityOK s' m = capacityOK s m := by
  simp only [Machine.capacityOK, h.cur, h.bufSize]

theorem SameControl.payloadPresent (h : SameControl s s') (len : Nat) :
    payloadPresent s' len = payloadPresent s len := by
  simp only [Machine.payloadPresent, h.port]

theorem SameControl.payloadAt (h : SameControl s s') (len : Nat) : payloadAt s' len = payloadAt s len := by
  simp only [Machine.payloadAt, h.port]

theorem SameControl.fetch (h : SameControl s s') : fetch s' = fetch s := by
  rw [Machine.fetch, Machine.fetch, faulted, faulted, h.fcause, h.port]

end Checks

theorem execInit_settled (opd : Word32) (s : State) : Settled s (execInit opd) := by
  unfold execInit
  refine settled_ite (fun _ _ => Iff.rfl) (fun _ => ?_) (fun _ => ?_)
  · exact settled_raise ..
  · exact settled_effect .initTable id

theorem execChar_settled (opd : Word32) (s : State) : Settled s (execChar opd) := by
  unfold execChar
  refine settled_ite (fun _ _ => Iff.rfl) (fun _ => settled_raise ..) fun _ => ?_
  refine settled_ite (fun _ _ => Iff.rfl) (fun _ => settled_raise ..) fun _ => ?_
  refine settled_ite (fun _ h => by rw [h.capacityOK]) (fun _ => settled_raise ..) fun _ => ?_
  exact settled_effect (.write [opd8 opd] 1) id

/-- U8 and U16 after their operand check: INIT_DONE, then room for `m` bytes, then entry `v` of the table. -/
theorem emitEntry_settled (i : Instr) (m : Nat) (v : Word16) (s : State) :
    Settled s (fun s' => if !s'.initDone then raise .notInit i 1 s'
      else if !capacityOK s' m then raise .bufOverflow i 1 s'
      else .next (emitEntry v (consume 1 s'))) := by
  refine settled_ite (fun _ h => by rw [h.initDone]) (fun _ => settled_raise ..) fun hready => ?_
  refine settled_ite (fun _ h => by rw [h.capacityOK]) (fun _ => settled_raise ..) fun _ => ?_
  exact ⟨.writeEntry v, fun _ => by simpa using hready, fun _ _ => rfl⟩

theorem execU8_settled (opd : Word32) (s : State) : Settled s (execU8 opd) := by
  unfold execU8
  exact settled_ite (fun _ _ => Iff.rfl) (fun _ => settled_raise ..) fun _ => emitEntry_settled ..

theorem execU16_settled (opd : Word32) (s : State) : Settled s (execU16 opd) := by
  unfold execU16
  exact settled_ite (fun _ _ => Iff.rfl) (fun _ => settled_raise ..) fun _ => emitEntry_settled ..

theorem execStr_settled (opd : Word32) (s : State) : Settled s (execStr opd) := by
  unfold execStr
  refine settled_ite (fun _ h => by rw [h.capacityOK]) (fun _ => settled_raise ..) fun _ => ?_
  refine settled_ite (fun _ h => by rw [h.payloadPresent]) (fun _ => settled_effect .idle id) fun _ => ?_
  refine settled_ite (fun _ h => by rw [h.payloadAt]) (fun _ => settled_raise ..) fun _ => ?_
  refine ⟨.write (literal (payloadAt s opd.toNat) opd.toNat) (1 + payloadWords opd.toNat), False.elim, fun _ h => ?_⟩
  simp only [h.payloadAt, Effect.apply]

/-- HEX and HEX2, under either command word. -/
theorem emitHex_settled (i : Instr) (opd : Word32) (s : State) :
    Settled s (fun s' => if !capacityOK s' 8 then raise .bufOverflow i 1 s'
      else .next (emitHex opd (consume 1 s'))) :=
  settled_ite (fun _ h => by rw [h.capacityOK]) (fun _ => settled_raise ..) fun _ => settled_effect (.writeHex opd) id

theorem execSetcur_settled (opd : Word32) (s : State) : Settled s (execSetcur opd) := by
  unfold execSetcur
  exact settled_ite (fun _ h => by rw [h.bufSize]) (fun _ => settled_raise ..)
    fun _ => settled_effect (.setCursor opd) id

theorem exec_settled (i : Instr) (s : State) : Settled s (exec i) := by
  cases i with
  | init opd => exact execInit_settled opd s
  | char opd => exact execChar_settled opd s
  | u8 opd => exact execU8_settled opd s
  | u16 opd => exact execU16_settled opd s
  | str opd => exact execStr_settled opd s
  | hex opd => exact emitHex_settled (.hex opd) opd s
  | hex2 opd => exact emitHex_settled (.hex2 opd) opd s
  | setcur opd => exact execSetcur_settled opd s

/-- The control state settles the step. -/
theorem step_settled (s : State) : Settled s step := by
  cases hf : fetch s with
  | nothing => exact ⟨.idle, False.elim, fun _ h => step_of_fetch_nothing (h.fetch.trans hf)⟩
  | illegal c w => exact ⟨.fault c w 1, False.elim, fun _ h => step_of_fetch_illegal (h.fetch.trans hf)⟩
  | command i =>
    obtain ⟨e, he, hexec⟩ := exec_settled i s
    exact ⟨e, he, fun s' h => (step_of_fetch_command (h.fetch.trans hf)).trans (hexec s' h)⟩

/-- An effect on a block with other contents of BUF differs only in the BUF that the same bytes are written to. -/
theorem apply_withBuf (e : Effect) (s : State) (m : Memory) :
    e.apply { s with buf := m } =
      { e.apply s with buf := memWrite m s.cur.toNat (e.written s.table) } := by
  cases e <;> rfl

theorem apply_buf (e : Effect) (s : State) :
    (e.apply s).buf = memWrite s.buf s.cur.toNat (e.written s.table) :=
  congrArg State.buf (apply_withBuf e s s.buf)

/-- A byte of BUF after a write is the byte written, whatever it was before, or else what it was before. -/
theorem overlay_eq_or_kept (start : Nat) (out : List Byte) (old old' : Option Byte) (a : Nat) :
    overlay start out old a = overlay start out old' a ∨
      (overlay start out old a = old ∧ overlay start out old' a = old') := by
  unfold overlay
  split_ifs
  · exact .inl rfl
  · exact .inr ⟨rfl, rfl⟩

/-- Settles O23: BUF is not in the control state, and an effect on another BUF writes the same bytes at the same
place. -/
theorem blockNeverReadsBuf : Obligations.BlockNeverReadsBuf := by
  intro s m
  obtain ⟨e, -, hstep⟩ := step_settled s
  have hother := (hstep _ (sameControl_withBuf s m)).trans (congrArg Host.Outcome.next (apply_withBuf e s m))
  refine ⟨e.apply s, _, hstep s (sameControl_refl s), hother, fun a => ?_⟩
  rw [apply_buf, readByte_memWrite, readByte_memWrite]
  exact overlay_eq_or_kept ..

/-- What U8 and U16 read of a populated table does not depend on its free contents (40_table_init.md R81). -/
theorem emitEntry_withTable {s : State} {t : DigitTable} (hs : s.table.built = true) (ht : t.built = true)
    (v : Word16) : emitEntry v { s with table := t } = { emitEntry v s with table := t } := by
  have hlen : tblLen t v = tblLen s.table v :=
    BitVec.eq_of_toNat_eq ((tblLen_built ht v).trans (tblLen_built hs v).symm)
  have hentry : tblEntry t v = tblEntry s.table v := (tblEntry_built ht v).trans (tblEntry_built hs v).symm
  simp only [emitEntry, hlen, hentry]
  rfl

/-- An effect that reads the table only where it is populated does not see the free contents. -/
theorem apply_withSeed {e : Effect} {s : State} (hbuilt : e.readsTable → s.table.built = true) (seed : Nat) :
    e.apply { s with table := { s.table with seed := seed } } =
      { e.apply s with table := { (e.apply s).table with seed := seed } } := by
  cases e with
  | writeEntry v =>
    exact emitEntry_withTable (s := consume 1 s) (t := { s.table with seed := seed }) (hbuilt trivial) (hbuilt trivial) v
  | _ => rfl

/-- Settles O24: the free contents are not in the control state, and an effect reads the table only where INIT_DONE is
1, hence where the invariant says that it is populated. -/
theorem freeTableContentsAreNeverRead : Obligations.FreeTableContentsAreNeverRead := by
  intro s seed hinv
  obtain ⟨e, hready, hstep⟩ := step_settled s
  have hbuilt : e.readsTable → s.table.built = true := fun h => hinv.table_built (hready h)
  exact ⟨e.apply s, hstep s (sameControl_refl s),
    (hstep _ (sameControl_withTable s _)).trans (congrArg Host.Outcome.next (apply_withSeed hbuilt seed))⟩

end Sys2Proof.Proofs
end

section
/-!
PROOFS. The hex-digit ROM, the STATUS word and the register read port (10_state.md R21, R23, R32).
-/

namespace Sys2Proof.Proofs

open Sys2Proof.Machine

/-- Settles O40: the sixteen bytes of the ROM, one by one. -/
theorem hexRomContents : Obligations.HexRomContents := by
  unfold Obligations.HexRomContents
  decide

/-- The number of two words put side by side. -/
theorem toNat_append_eq_add {m n : Nat} (x : BitVec m) (y : BitVec n) :
    (x ++ y).toNat = 2 ^ n * x.toNat + y.toNat := by
  rw [BitVec.toNat_append, ← Nat.shiftLeft_add_eq_or_of_lt y.isLt, Nat.shiftLeft_eq, Nat.mul_comm]

/-- Settles O43, field by field. -/
theorem statusWordFields : Obligations.StatusWordFields := by
  intro s
  have hzero (n : Nat) : (0 : BitVec n).toNat = 0 := BitVec.toNat_zero
  simp only [statusWord, toNat_append_eq_add, BitVec.toNat_ofBool, Bool.toNat, hzero, Bool.cond_eq_ite, faulted_iff]
  split_ifs <;> omega

/-- Settles O44, register by register. -/
theorem registerPortReads : Obligations.RegisterPortReads := by
  intro s
  have hlow : s.fcmd.extractLsb' 0 32 = BitVec.ofNat 32 s.fcmd.toNat := by
    rw [BitVec.extractLsb', Nat.shiftRight_zero]
  have hhigh : s.fcmd.extractLsb' 32 32 = BitVec.ofNat 32 (s.fcmd.toNat / 2 ^ 32) := by
    rw [BitVec.extractLsb', Nat.shiftRight_eq_div_pow]
  have hother (index : Nat) (h : 5 ≤ index) : readRegister s index = 0 := by
    obtain ⟨k, rfl⟩ := Nat.exists_eq_add_of_le' h
    rfl
  refine ⟨rfl, rfl, rfl, ?_, ?_, fun index h => ?_⟩
  · rw [← hlow]; rfl
  · rw [← hhigh]; rfl
  · rw [hostStep, hother index h]

end Sys2Proof.Proofs
end

section
/-!
PROOFS. When the block is idle, and what the host may do to BUF (20_memory.md R47, R51, R52, R54).
-/

namespace Sys2Proof.Proofs

open Sys2Proof.Machine Sys2Proof.Safety

theorem payloadPresent_eq_false (s : State) (len : Nat) :
    payloadPresent s len = false ↔ s.port.length < 1 + payloadWords len := by
  simp [payloadPresent]

theorem hasStep_of_fetch_nothing {s : State} (h : fetch s = .nothing) : hasStep s = false := by
  rw [hasStep, h]

theorem hasStep_of_fetch_illegal {s : State} {f : FaultCause} {w : Word64} (h : fetch s = .illegal f w) :
    hasStep s = true := by
  rw [hasStep, h]

/-- A command at the head of the stream has no step exactly where it is a STR that fits and waits for its payload
(70_reset_and_hazards.md R161). -/
theorem hasStep_eq_false_of_fetch_command {s : State} {i : Instr} (h : fetch s = .command i) :
    hasStep s = false ↔ ∃ opd, i = .str opd ∧ s.cur.toNat + opd.toNat ≤ s.bufSize.val ∧
      s.port.length < 1 + payloadWords opd.toNat := by
  rw [hasStep, h]
  cases i with
  | str opd => simp [capacityOK_iff, payloadPresent_eq_false]
  | _ => simp

theorem idle_eq_true (s : State) : idle s = true ↔ hasStep s = false := by
  simp [idle]

/-- Settles O56, one case for each thing the fetch can find. -/
theorem idleMeansNoCompleteCommand : Obligations.IdleMeansNoCompleteCommand := by
  intro s
  rw [idle_eq_true]
  rcases fetch_cases s with ⟨hf, hnone⟩ | ⟨w, rest, e, h0, hp, hd, hf⟩ | ⟨w, rest, i, h0, hp, hd, hf⟩
  · have hidle := hasStep_of_fetch_nothing hf
    exact iff_of_true hidle (hnone.imp_right .inl)
  · have hbusy := hasStep_of_fetch_illegal hf
    simp [hbusy, h0, hp, hd]
  · rw [hasStep_eq_false_of_fetch_command hf]
    have hlength (len : Nat) : s.port.length < 1 + payloadWords len ↔ rest.length < (len + 7) / 8 := by
      rw [hp, List.length_cons, payloadWords]
      omega
    simp [h0, hp, hd, ← hlength]

theorem hostBufFault_of_outside {s : State} {a : Nat} (h : s.bufSize.val ≤ a) :
    hostBufFault s a = some (.hostAddressOutsideBuf a) :=
  if_pos h

theorem hostBufFault_of_busy {s : State} {a : Nat} (ha : a < s.bufSize.val) (hbusy : idle s = false) :
    hostBufFault s a = some (.hostAccessNotIdle a) := by
  simp [hostBufFault, ha, hbusy]

section HostAccess
variable {s : State} {a : Nat}

theorem readBuf_of_fault {f : Fault} (h : hostBufFault s a = some f) : hostStep (.readBuf a) s = .fault f := by
  rw [hostStep, h]

theorem writeBuf_of_fault {f : Fault} (b : Byte) (h : hostBufFault s a = some f) :
    hostStep (.writeBuf a b) s = .fault f := by
  rw [hostStep, h]

theorem readBuf_of_idle (ha : a < s.bufSize.val) (hidle : idle s = true) :
    hostStep (.readBuf a) s = .next (s, .byte (bufByte s.buf a)) := by
  rw [hostStep, (hostBufFault_eq_none s a).2 ⟨ha, hidle⟩]

theorem writeBuf_of_idle (b : Byte) (ha : a < s.bufSize.val) (hidle : idle s = true) :
    hostStep (.writeBuf a b) s = .next (hostWrite a b s, .nothing) := by
  rw [hostStep, (hostBufFault_eq_none s a).2 ⟨ha, hidle⟩]

/-- A byte that something has written is read as written (20_memory.md R47). -/
theorem readBuf_of_readByte (ha : a < s.bufSize.val) (hidle : idle s = true) {c : Byte}
    (hc : readByte s.buf a = some c) : hostStep (.readBuf a) s = .next (s, .byte c) := by
  rw [readBuf_of_idle ha hidle, bufByte, hc, Option.getD_some]

end HostAccess

/-- A host action other than an access to BUF is answered in every state (20_memory.md R52). -/
theorem hostStep_answers {h : HostAction} (s : State) (hread : ∀ a, h ≠ .readBuf a)
    (hwrite : ∀ a b, h ≠ .writeBuf a b) : ∃ t r, hostStep h s = .next (t, r) := by
  cases h with
  | deliver w => exact ⟨_, _, rfl⟩
  | readRegister index => exact ⟨_, _, rfl⟩
  | readBuf a => exact absurd rfl (hread a)
  | writeBuf a b => exact absurd rfl (hwrite a b)
  | reset => exact ⟨_, _, rfl⟩

/-- An answered host action on a block that is not idle leaves BUF as it is. -/
theorem hostStep_keeps_buf_of_busy {h : HostAction} {s t : State} {r : HostReply} (hbusy : idle s = false)
    (ht : hostStep h s = .next (t, r)) : t.buf = s.buf := by
  rcases hostStep_cases ht with ⟨w, -, rfl⟩ | ⟨rfl, -⟩ | ⟨a, b, -, -, hidle, -⟩ | ⟨-, rfl⟩
  · rfl
  · rfl
  · rw [hbusy] at hidle
    cases hidle
  · rfl

/-- Settles O57: the check of an access fails on the block, and every answered action is one of the four of
`hostStep_cases`, of which only the write of an idle block changes BUF. -/
theorem hostAccessNeedsAnIdleBlock : Obligations.HostAccessNeedsAnIdleBlock := by
  intro s a b hbusy
  refine ⟨fun ha => ?_, fun h hread hwrite => hostStep_answers s hread hwrite,
    fun h t r ht => hostStep_keeps_buf_of_busy hbusy ht⟩
  have hfault := hostBufFault_of_busy ha hbusy
  exact ⟨readBuf_of_fault hfault, writeBuf_of_fault b hfault⟩

/-- Settles O46: the address is checked first. -/
theorem hostAccessOutsideBufStops : Obligations.HostAccessOutsideBufStops := by
  intro s a b ha
  have hfault := hostBufFault_of_outside ha
  exact ⟨readBuf_of_fault hfault, writeBuf_of_fault b hfault⟩

/-- Settles O45: the written block is as idle as it was, so the host may read it back. -/
theorem hostAccessesBuf : Obligations.HostAccessesBuf := by
  intro s a b ha hidle
  have hread (x : Nat) : readByte (writeByte s.buf a b) x = if x = a then some b else readByte s.buf x :=
    readByte_writeByte s.buf a x b
  have hwritten : idle (hostWrite a b s) = true := (idle_hostWrite a b s).trans hidle
  exact ⟨writeByte s.buf a b, writeBuf_of_idle b ha hidle, hread,
    readBuf_of_readByte (s := hostWrite a b s) ha hwritten ((hread a).trans (if_pos rfl)),
    fun c hc => readBuf_of_readByte ha hidle hc⟩

/-- Settles O49: the stream and the checks of a command are in the control state, which BUF is not part of. -/
theorem hostWritesDoNotReachCommands : Obligations.HostWritesDoNotReachCommands := by
  intro s a b w
  have hcontrol : SameControl s (hostWrite a b s) := sameControl_withBuf s (writeByte s.buf a b)
  have hstep : hasStep (hostWrite a b s) = hasStep s := by
    simp only [hasStep, hcontrol.fetch, hcontrol.capacityOK, hcontrol.payloadPresent]
  exact ⟨hcontrol.port, hcontrol.fetch, hstep, rfl⟩

theorem deliver_keeps_inv {s : State} (h : StateInv s) (w : Word64) : StateInv (deliver w s) :=
  ⟨h.bufSize_pos, h.buf_wf, h.buf_inside, h.cur_le, h.fcause_legal, h.table_built, h.fcmd_clear, h.res_le⟩

theorem hostWrite_keeps_inv {s : State} (h : StateInv s) {a : Nat} (ha : a < s.bufSize.val) (b : Byte) :
    StateInv (hostWrite a b s) where
  bufSize_pos := h.bufSize_pos
  buf_wf := writeByte_wf h.buf_wf a b
  buf_inside c hc := by
    rcases writeByte_inside hc with rfl | hold
    · exact ha
    · exact h.buf_inside c hold
  cur_le := h.cur_le
  fcause_legal := h.fcause_legal
  table_built := h.table_built
  fcmd_clear := h.fcmd_clear
  res_le := h.res_le

theorem resetBlock_keeps_inv {s : State} (h : StateInv s) : StateInv (resetBlock s) :=
  powerUp_inv (s.table.seed + 1) h.bufSize_pos h.buf_wf h.buf_inside

/-- Settles O18, one case for each thing an answered host action can do. -/
theorem hostActionsKeepTheInvariant : Obligations.HostActionsKeepTheInvariant := by
  intro h s t r hinv ht
  rcases hostStep_cases ht with ⟨w, -, rfl⟩ | ⟨rfl, -⟩ | ⟨a, b, -, ha, -, rfl⟩ | ⟨-, rfl⟩
  · exact deliver_keeps_inv hinv w
  · exact hinv
  · exact hostWrite_keeps_inv hinv ha b
  · exact resetBlock_keeps_inv hinv

end Sys2Proof.Proofs
end

section
/-!
PROOFS. Where a step writes BUF (20_memory.md R45, R46): nowhere, or one run of bytes from the old CUR, which the
capacity check keeps inside BUF, so that the new CUR stands just past it without a wrap.
-/

namespace Sys2Proof.Proofs

open Sys2Proof.Machine Sys2Proof.Safety

/-- BUF of `t` is BUF of `s`, or it is that with a run of bytes written from CUR of `s` up to CUR of `t`. -/
def WritesAtCursor (s t : State) : Prop :=
  t.buf = s.buf ∨ ∃ out, t.buf = memWrite s.buf s.cur.toNat out ∧ t.cur.toNat = s.cur.toNat + out.length

/-- A run that fits, whatever words were consumed before it and whatever length is returned after it. -/
theorem emit_writesAtCursor {s t : State} {out : List Byte} (n : Nat) (hbuf : t.buf = (emit out (consume n s)).buf)
    (hcur : t.cur = (emit out (consume n s)).cur) (hfit : s.cur.toNat + out.length ≤ s.bufSize.val) :
    WritesAtCursor s t :=
  .inr ⟨out, hbuf, by rw [hcur, emit_cur_toNat (s := consume n s) hfit, consume_cur]⟩

/-- The table entry that U8 or U16 copies fits where the capacity check of the command passed (41_decimal.md R92,
R93). -/
theorem tblEntry_fits {i : Instr} {s : State} {v : Word16} (hbuilt : s.table.built = true)
    (hroom : (∃ opd, i = .u8 opd ∧ v = u8Index opd ∧ opd.extractLsb' 8 24 = 0 ∧ s.cur.toNat + 3 ≤ s.bufSize.val) ∨
      ∃ opd, i = .u16 opd ∧ v = opd16 opd ∧ opd.extractLsb' 16 16 = 0 ∧ s.cur.toNat + 5 ≤ s.bufSize.val) :
    s.cur.toNat + (tblEntry s.table v).length ≤ s.bufSize.val := by
  rw [tblEntry_length, tblLen_built hbuilt]
  rcases hroom with ⟨opd, -, rfl, -, hroom⟩ | ⟨opd, -, -, -, hroom⟩
  · have := ndec_le_three (u8Index_lt opd)
    omega
  · have := ndec_le v.toNat
    omega

/-- A command writes BUF at the cursor only: a formatter has checked the room for what it writes, and the other
commands leave BUF as it is. -/
theorem exec_writesAtCursor {i : Instr} {s t : State} (h : StateInv s) (ht : exec i s = .next t) :
    WritesAtCursor s t := by
  rcases exec_cases i s with ⟨f, n, hx, -⟩ | ⟨hx, -⟩ | ⟨hx, -⟩ | ⟨c, -, -, hx⟩ | ⟨out, n, hx, hroom⟩ |
    ⟨v, hx, hready, hroom⟩ | ⟨v, hx, hroom, -⟩
  · cases hx.symm.trans ht
    exact .inl rfl
  · cases hx.symm.trans ht
    exact .inl rfl
  · cases hx.symm.trans ht
    exact .inl rfl
  · cases hx.symm.trans ht
    exact .inl rfl
  · cases hx.symm.trans ht
    refine emit_writesAtCursor n rfl rfl ?_
    rcases hroom with ⟨opd, -, -, rfl, hroom⟩ | ⟨opd, -, -, -, rfl, hroom⟩
    · exact hroom
    · rwa [literal_length]
  · cases hx.symm.trans ht
    exact emit_writesAtCursor 1 rfl rfl (tblEntry_fits (h.table_built hready) hroom)
  · cases hx.symm.trans ht
    have hlen := nhex_le v
    exact emit_writesAtCursor 1 rfl rfl (by rw [hexstr_length]; omega)

theorem step_writesAtCursor {s t : State} (h : StateInv s) (ht : step s = .next t) : WritesAtCursor s t := by
  rcases step_cases s with hs | ⟨w, -, e, -, -, hs⟩ | ⟨-, -, i, -, -, hs⟩
  · cases hs.symm.trans ht
    exact .inl rfl
  · cases hs.symm.trans ht
    exact .inl rfl
  · exact exec_writesAtCursor h (hs.symm.trans ht)

/-- Settles O20: an address below the old CUR or from the new CUR on is outside the run that the step writes. -/
theorem stepWritesOnlyAtTheCursor : Obligations.StepWritesOnlyAtTheCursor := by
  intro s t hinv ht a ha
  rcases step_writesAtCursor hinv ht with hbuf | ⟨out, hbuf, hcur⟩
  · rw [hbuf]
  · have houtside : ¬ (s.cur.toNat ≤ a ∧ a < s.cur.toNat + out.length) := by omega
    rw [hbuf, readByte_memWrite, overlay, if_neg houtside]

end Sys2Proof.Proofs
end

section
/-!
PROOFS. Words delivered behind a complete command (20_memory.md R50; 10_state.md R28). A command takes words from the
front of the stream, all of them there, and its checks see no word behind them; so it does the same with one more word
at the end, which stays there.
-/

namespace Sys2Proof.Proofs

open Sys2Proof.Machine Sys2Proof.Safety

/-- How many words of the stream an effect takes. -/
def Effect.words : Effect → Nat
  | .idle => 0
  | .fault _ _ n => n
  | .write _ n => n
  | _ => 1

section Deliver
variable {s : State} (w : Word64)

theorem consume_deliver {n : Nat} (h : n ≤ s.port.length) : consume n (deliver w s) = deliver w (consume n s) := by
  simp only [consume, deliver, List.drop_append_of_le_length h]

/-- An effect whose words are all there leaves a word behind them where it is. -/
theorem apply_deliver {e : Effect} (h : e.words ≤ s.port.length) : e.apply (deliver w s) = deliver w (e.apply s) := by
  have hwords := consume_deliver w h
  cases e with
  | idle => rfl
  | fault f x n => exact congrArg (fun u => { u with fcause := faultCode f, fcmd := x }) hwords
  | initTable => exact congrArg (fun u => { u with table := buildTable u.table, initDone := true }) hwords
  | setCursor c => exact congrArg (fun u => { u with cur := c }) hwords
  | write out n => exact congrArg (emit out) hwords
  | writeEntry v => exact congrArg (emitEntry v) hwords
  | writeHex v => exact congrArg (emitHex v) hwords

theorem payloadPresent_deliver {len : Nat} (h : payloadPresent s len = true) :
    payloadPresent (deliver w s) len = true := by
  simp only [payloadPresent, deliver, List.length_append, decide_eq_true_eq] at h ⊢
  omega

theorem payloadAt_deliver {len : Nat} (h : 1 + payloadWords len ≤ s.port.length) :
    payloadAt (deliver w s) len = payloadAt s len := by
  have hhead : 1 ≤ s.port.length := by omega
  have hpayload : payloadWords len ≤ (s.port.drop 1).length := by rw [List.length_drop]; omega
  rw [payloadAt, deliver, List.drop_append_of_le_length hhead, List.take_append_of_le_length hpayload, payloadAt]

theorem deliver_port_cons {x : Word64} {rest : List Word64} (h : s.port = x :: rest) :
    (deliver w s).port = x :: (rest ++ [w]) := by
  rw [deliver, h, List.cons_append]

end Deliver

/-- What `f` makes of `s` is not changed by a word delivered behind the stream: the word stays there. -/
def Undisturbed (w : Word64) (s : State) (f : State → Host.Outcome State Fault Refusal) : Prop :=
  ∀ t, f s = .next t → f (deliver w s) = .next (deliver w t)

section Undisturbed
variable {w : Word64} {s : State} {f g : State → Host.Outcome State Fault Refusal}

/-- Both blocks answer with one and the same effect. -/
theorem undisturbed_of_effect (e : Effect) (h : e.words ≤ s.port.length) (hs : f s = .next (e.apply s))
    (hd : f (deliver w s) = .next (e.apply (deliver w s))) : Undisturbed w s f := by
  intro t ht
  cases hs.symm.trans ht
  exact hd.trans (congrArg Host.Outcome.next (apply_deliver w h))

theorem undisturbed_effect (e : Effect) (h : e.words ≤ s.port.length) :
    Undisturbed w s (fun s' => .next (e.apply s')) :=
  undisturbed_of_effect e h rfl rfl

theorem undisturbed_raise (c : FaultCause) (i : Instr) {n : Nat} (h : n ≤ s.port.length) :
    Undisturbed w s (raise c i n) :=
  undisturbed_effect (.fault c (encode i) n) h

/-- A check that does not see the word behind is undisturbed where both its branches are. -/
theorem undisturbed_ite {c : State → Prop} [DecidablePred c] (hc : c (deliver w s) ↔ c s)
    (hf : c s → Undisturbed w s f) (hg : ¬ c s → Undisturbed w s g) :
    Undisturbed w s (fun s' => if c s' then f s' else g s') := by
  intro t ht
  by_cases h : c s
  · exact (if_pos (hc.2 h)).trans (hf h t ((if_pos h).symm.trans ht))
  · exact (if_neg (mt hc.1 h)).trans (hg h t ((if_neg h).symm.trans ht))

end Undisturbed

section Commands
variable {s : State} (w : Word64) (opd : Word32)

/-- STR with its payload there, or without the room for it. -/
theorem execStr_undisturbed (hport : 1 ≤ s.port.length)
    (hready : s.cur.toNat + opd.toNat ≤ s.bufSize.val → 1 + payloadWords opd.toNat ≤ s.port.length) :
    Undisturbed w s (execStr opd) := by
  unfold execStr
  refine undisturbed_ite Iff.rfl (fun _ => undisturbed_raise _ _ hport) fun hroom => ?_
  have hlen : 1 + payloadWords opd.toNat ≤ s.port.length := hready ((capacityOK_iff _ _).1 (by simpa using hroom))
  have hpresent : payloadPresent s opd.toNat = true := decide_eq_true hlen
  refine undisturbed_ite (by rw [hpresent, payloadPresent_deliver w hpresent]) (fun hwait => ?_) fun _ => ?_
  · simp [hpresent] at hwait
  refine undisturbed_ite (by rw [payloadAt_deliver w hlen]) (fun _ => undisturbed_raise _ _ hlen) fun _ => ?_
  refine undisturbed_of_effect (.write (literal (payloadAt s opd.toNat) opd.toNat) _) hlen rfl ?_
  simp only [payloadAt_deliver w hlen, Effect.apply]

variable (hport : 1 ≤ s.port.length)
include hport

theorem execInit_undisturbed : Undisturbed w s (execInit opd) := by
  unfold execInit
  refine undisturbed_ite Iff.rfl (fun _ => undisturbed_raise _ _ hport) fun _ => ?_
  exact undisturbed_effect .initTable hport

theorem execChar_undisturbed : Undisturbed w s (execChar opd) := by
  unfold execChar
  refine undisturbed_ite Iff.rfl (fun _ => undisturbed_raise _ _ hport) fun _ => ?_
  refine undisturbed_ite Iff.rfl (fun _ => undisturbed_raise _ _ hport) fun _ => ?_
  refine undisturbed_ite Iff.rfl (fun _ => undisturbed_raise _ _ hport) fun _ => ?_
  exact undisturbed_effect (.write [opd8 opd] 1) hport

/-- U8 and U16 after their operand check. -/
theorem emitEntry_undisturbed (i : Instr) (m : Nat) (v : Word16) :
    Undisturbed w s (fun s' => if !s'.initDone then raise .notInit i 1 s'
      else if !capacityOK s' m then raise .bufOverflow i 1 s'
      else .next (emitEntry v (consume 1 s'))) := by
  refine undisturbed_ite Iff.rfl (fun _ => undisturbed_raise _ _ hport) fun _ => ?_
  refine undisturbed_ite Iff.rfl (fun _ => undisturbed_raise _ _ hport) fun _ => ?_
  exact undisturbed_effect (.writeEntry v) hport

theorem execU8_undisturbed : Undisturbed w s (execU8 opd) := by
  unfold execU8
  exact undisturbed_ite Iff.rfl (fun _ => undisturbed_raise _ _ hport) fun _ => emitEntry_undisturbed w hport _ _ _

theorem execU16_undisturbed : Undisturbed w s (execU16 opd) := by
  unfold execU16
  exact undisturbed_ite Iff.rfl (fun _ => undisturbed_raise _ _ hport) fun _ => emitEntry_undisturbed w hport _ _ _

/-- HEX and HEX2, under either command word. -/
theorem emitHex_undisturbed (i : Instr) :
    Undisturbed w s (fun s' => if !capacityOK s' 8 then raise .bufOverflow i 1 s'
      else .next (emitHex opd (consume 1 s'))) :=
  undisturbed_ite Iff.rfl (fun _ => undisturbed_raise _ _ hport) fun _ => undisturbed_effect (.writeHex opd) hport

theorem execSetcur_undisturbed : Undisturbed w s (execSetcur opd) := by
  unfold execSetcur
  refine undisturbed_ite Iff.rfl (fun _ => undisturbed_raise _ _ hport) fun _ => ?_
  exact undisturbed_effect (.setCursor opd) hport

end Commands

/-- A command that does not wait for its payload is undisturbed. -/
theorem exec_undisturbed (w : Word64) {i : Instr} {s : State} (hport : 1 ≤ s.port.length)
    (hready : ∀ opd, i = .str opd → s.cur.toNat + opd.toNat ≤ s.bufSize.val →
      1 + payloadWords opd.toNat ≤ s.port.length) : Undisturbed w s (exec i) := by
  cases i with
  | init opd => exact execInit_undisturbed w opd hport
  | char opd => exact execChar_undisturbed w opd hport
  | u8 opd => exact execU8_undisturbed w opd hport
  | u16 opd => exact execU16_undisturbed w opd hport
  | str opd => exact execStr_undisturbed w opd hport (hready opd rfl)
  | hex opd => exact emitHex_undisturbed w opd hport (.hex opd)
  | hex2 opd => exact emitHex_undisturbed w opd hport (.hex2 opd)
  | setcur opd => exact execSetcur_undisturbed w opd hport

/-- A block with a step has the whole payload of a STR that fits. -/
theorem payload_ready_of_hasStep {s : State} {i : Instr} (hf : fetch s = .command i) (hs : hasStep s = true) :
    ∀ opd, i = .str opd → s.cur.toNat + opd.toNat ≤ s.bufSize.val →
      1 + payloadWords opd.toNat ≤ s.port.length := by
  intro opd hi hfit
  by_contra hshort
  have hwait := (hasStep_eq_false_of_fetch_command hf).2 ⟨opd, hi, hfit, Nat.lt_of_not_le hshort⟩
  rw [hs] at hwait
  cases hwait

/-- Settles O13: the word at the head of the stream is the same, and its fault or its command is undisturbed. -/
theorem laterWordsDoNotDisturbACommand : Obligations.LaterWordsDoNotDisturbACommand := by
  intro s t w hs ht
  rcases fetch_cases s with ⟨hf, -⟩ | ⟨x, rest, e, h0, hp, hd, hf⟩ | ⟨x, rest, i, h0, hp, hd, hf⟩
  · rw [hasStep_of_fetch_nothing hf] at hs
    cases hs
  · have hport : 1 ≤ s.port.length := by simp [hp]
    rw [step_of_fetch_illegal hf] at ht
    rw [step_of_fetch_illegal (fetch_of_illegal (s := deliver w s) h0 (deliver_port_cons w hp) hd)]
    exact undisturbed_effect (.fault (decodeFault e) x 1) hport t ht
  · have hport : 1 ≤ s.port.length := by simp [hp]
    rw [step_of_fetch_command hf] at ht
    rw [step_of_fetch_command (fetch_of_command (s := deliver w s) h0 (deliver_port_cons w hp) hd)]
    exact exec_undisturbed w hport (payload_ready_of_hasStep hf hs) t ht

end Sys2Proof.Proofs
end

section
/-!
PROOFS. Command words (30_encoding.md R60, R61, R65, R66, R67, R70): the decoder is the inverse of the encoder on the
legal words, and the fields of a word, read as numbers, tell which words are legal and how long their commands are.
-/

namespace Sys2Proof.Proofs

open Sys2Proof.Machine

theorem encodeFields (i : Instr) : Laws.EncodeFields.Statement i := Laws.fields_of_append _ _ _ rfl

/-- The opcode map is a left inverse of the opcode and the operand of a command (30_encoding.md R61). -/
theorem instrOf_opcodeOf (i : Instr) : instrOf (opcodeOf i) (operandOf i) = some i := by
  cases i <;> rfl

theorem decode_of_fields {w : Word64} {i : Instr} (hopc : opcField w = opcodeOf i) (hopd : opdField w = operandOf i)
    (hrsv : rsvField w = 0) : decode w = .ok i := by
  rw [decode, hopc, hopd, instrOf_opcodeOf]
  simp [hrsv]

/-- Settles O1: the decoder finds the three fields that the encoder put into the word. -/
theorem decodeOfEncodeIsTheCommand : Obligations.DecodeOfEncodeIsTheCommand := by
  intro i
  obtain ⟨hopc, hrsv, hopd⟩ := encodeFields i
  exact decode_of_fields hopc hopd hrsv

/-- Settles O2: a legal word is put together from its own three fields. -/
theorem encodeOfDecodeIsTheWord : Obligations.EncodeOfDecodeIsTheWord :=
  fun _ _ hd => encode_of_decode hd

section FieldsAsNumbers
variable (w : Word64)

theorem toNat_opcField : (opcField w).toNat = w.toNat / 2 ^ 56 := by
  have hw := w.isLt
  rw [opcField, BitVec.extractLsb'_toNat, Nat.shiftRight_eq_div_pow]
  omega

theorem rsvField_eq_zero_iff : rsvField w = 0 ↔ (w.toNat / 2 ^ 32) % 2 ^ 24 = 0 := by
  rw [← BitVec.toNat_inj, rsvField, BitVec.extractLsb'_toNat, Nat.shiftRight_eq_div_pow]
  rfl

theorem opdField_eq_ofNat : opdField w = BitVec.ofNat 32 w.toNat := by
  rw [opdField, BitVec.extractLsb', Nat.shiftRight_zero]

theorem toNat_opdField : (opdField w).toNat = w.toNat % 2 ^ 32 := by
  rw [opdField_eq_ofNat, BitVec.toNat_ofNat]

end FieldsAsNumbers

/-- The reserved opcodes are 0x00 and 0x09 .. 0xFF (30_encoding.md R61, R65). -/
theorem instrOf_eq_none_iff (opc : Byte) (opd : Word32) :
    instrOf opc opd = none ↔ opc.toNat = 0 ∨ 9 ≤ opc.toNat := by
  unfold instrOf
  split
  case h_9 =>
    simp only [imp_false, true_iff] at *
    omega
  all_goals simp_all

section Legality
variable {w : Word64}

theorem instrOf_of_reserved_opcode (h : w.toNat / 2 ^ 56 = 0 ∨ 9 ≤ w.toNat / 2 ^ 56) :
    instrOf (opcField w) (opdField w) = none := by
  rwa [instrOf_eq_none_iff, toNat_opcField]

/-- A reserved opcode is refused, whatever RSV is (30_encoding.md R65, R66). -/
theorem decode_of_reserved_opcode (h : w.toNat / 2 ^ 56 = 0 ∨ 9 ≤ w.toNat / 2 ^ 56) :
    decode w = .error .badOpcode := by
  rw [decode, instrOf_of_reserved_opcode h]

/-- A legal opcode selects a command, whatever RSV is (30_encoding.md R61). -/
theorem exists_instrOf_of_legal_opcode (hlo : 1 ≤ w.toNat / 2 ^ 56) (hhi : w.toNat / 2 ^ 56 ≤ 8) :
    ∃ i, instrOf (opcField w) (opdField w) = some i := by
  refine Option.ne_none_iff_exists'.1 fun hnone => ?_
  rw [instrOf_eq_none_iff, toNat_opcField] at hnone
  omega

theorem decode_of_reserved_bits (hlo : 1 ≤ w.toNat / 2 ^ 56) (hhi : w.toNat / 2 ^ 56 ≤ 8)
    (hrsv : (w.toNat / 2 ^ 32) % 2 ^ 24 ≠ 0) : decode w = .error .reservedBits := by
  obtain ⟨i, hi⟩ := exists_instrOf_of_legal_opcode hlo hhi
  simp only [decode, hi, ne_eq, rsvField_eq_zero_iff, hrsv, not_false_eq_true, if_true]

theorem decode_of_opcode {i : Instr} (hrsv : (w.toNat / 2 ^ 32) % 2 ^ 24 = 0)
    (hopc : w.toNat / 2 ^ 56 = (opcodeOf i).toNat) (hopd : operandOf i = BitVec.ofNat 32 w.toNat) :
    decode w = .ok i :=
  decode_of_fields (BitVec.eq_of_toNat_eq ((toNat_opcField w).trans hopc)) ((opdField_eq_ofNat w).trans hopd.symm)
    ((rsvField_eq_zero_iff w).2 hrsv)

end Legality

/-- Settles O3, opcode by opcode. -/
theorem opcodeMapSelectsTheCommand : Obligations.OpcodeMapSelectsTheCommand := by
  intro w hrsv opc opd
  exact ⟨fun h => decode_of_opcode hrsv h rfl, fun h => decode_of_opcode hrsv h rfl,
    fun h => decode_of_opcode hrsv h rfl, fun h => decode_of_opcode hrsv h rfl,
    fun h => decode_of_opcode hrsv h rfl, fun h => decode_of_opcode hrsv h rfl,
    fun h => decode_of_opcode hrsv h rfl, fun h => decode_of_opcode hrsv h rfl, decode_of_reserved_opcode⟩

/-- Settles O4, word by word. -/
theorem exampleWordsDecode : Obligations.ExampleWordsDecode := by
  unfold Obligations.ExampleWordsDecode
  decide

/-! ### The length of a command -/

/-- The number of words of a command (30_encoding.md R63, R67). -/
def wordsOf : Instr → Nat
  | .str opd => 1 + payloadWords opd.toNat
  | _ => 1

theorem wordsOf_eq (i : Instr) :
    wordsOf i = if (opcodeOf i).toNat = 5 then 1 + payloadWords (operandOf i).toNat else 1 := by
  cases i <;> rfl

theorem commandLength_of_instrOf {w : Word64} {i : Instr} (h : instrOf (opcField w) (opdField w) = some i) :
    commandLength w = some (wordsOf i) := by
  rw [commandLength, h]
  cases i <;> rfl

theorem commandLength_eq_wordsOf {w : Word64} {i : Instr} (h : decode w = .ok i) :
    commandLength w = some (wordsOf i) := by
  obtain ⟨_, hj, rfl, -⟩ := decode_eq_ok h
  exact commandLength_of_instrOf hj

/-- The length in the numbers of the word, whatever its RSV (30_encoding.md R67). -/
theorem commandLength_of_legal_opcode {w : Word64} (hlo : 1 ≤ w.toNat / 2 ^ 56) (hhi : w.toNat / 2 ^ 56 ≤ 8) :
    commandLength w = some (if w.toNat / 2 ^ 56 = 5 then 1 + (w.toNat % 2 ^ 32 + 7) / 8 else 1) := by
  obtain ⟨i, hi⟩ := exists_instrOf_of_legal_opcode hlo hhi
  obtain ⟨hopc, hopd⟩ := instrOf_eq_some hi
  rw [commandLength_of_instrOf hi, wordsOf_eq, hopc, hopd, toNat_opcField, toNat_opdField, payloadWords]

theorem commandLength_of_reserved_opcode {w : Word64} (h : w.toNat / 2 ^ 56 = 0 ∨ 9 ≤ w.toNat / 2 ^ 56) :
    commandLength w = none := by
  rw [commandLength, instrOf_of_reserved_opcode h]

theorem legal_opcode_of_decode {w : Word64} {i : Instr} (h : decode w = .ok i) :
    1 ≤ w.toNat / 2 ^ 56 ∧ w.toNat / 2 ^ 56 ≤ 8 := by
  by_contra hillegal
  cases h.symm.trans (decode_of_reserved_opcode (w := w) (by omega))

end Sys2Proof.Proofs
end

section
/-!
PROOFS. What a step makes of the word at the head of the stream (30_encoding.md R62, R65, R66, R67): it runs a legal
word's command, which takes its own length in words unless it faults, and it faults an illegal one.
-/

namespace Sys2Proof.Proofs

open Sys2Proof.Machine

/-- Settles O6. -/
theorem stepRunsTheDecodedCommand : Obligations.StepRunsTheDecodedCommand :=
  fun _ _ _ _ h0 hp hd => step_of_fetch_command (fetch_of_command h0 hp hd)

/-- The fault of an illegal word takes that word alone (30_encoding.md R65; 60_exceptions.md R133). -/
theorem step_of_illegal_word {s : State} {w : Word64} {rest : List Word64} {e : DecodeError} (h0 : s.fcause = 0)
    (hp : s.port = w :: rest) (hd : decode w = .error e) :
    step s = .next { s with fcause := faultCode (decodeFault e), fcmd := w, port := rest, pos := s.pos + 1 } := by
  rw [step_of_fetch_illegal (fetch_of_illegal h0 hp hd), takeFault, consume, hp, List.drop_one, List.tail_cons]

/-- Settles O7. -/
theorem illegalWordsFault : Obligations.IllegalWordsFault := by
  intro s w rest h0 hp opc
  refine ⟨fun hopc => ?_, fun hlo hhi hrsv => ?_⟩
  · exact step_of_illegal_word h0 hp (decode_of_reserved_opcode hopc)
  · exact step_of_illegal_word h0 hp (decode_of_reserved_bits hlo hhi hrsv)

/-- Settles O55: the opcode is legal, or its word has no length and faults. -/
theorem commandLengthFollowsTheOpcode : Obligations.CommandLengthFollowsTheOpcode := by
  intro w opc
  refine ⟨fun hlo hhi hne => ?_, fun hstr => ?_, fun hopc => ⟨commandLength_of_reserved_opcode hopc, ?_⟩⟩
  · rw [commandLength_of_legal_opcode hlo hhi, if_neg hne]
  · rw [commandLength_of_legal_opcode (w := w) (by omega) (by omega), if_pos hstr]
  · intro s rest h0 hp
    exact ⟨_, step_of_illegal_word h0 hp (decode_of_reserved_opcode hopc), rfl, rfl, rfl⟩

/-- The fault of a command that has taken its command word only, written out (60_exceptions.md R133). -/
theorem raise_one (f : FaultCause) (i : Instr) (s : State) : raise f i 1 s =
    .next { s with fcause := faultCode f, fcmd := encode i, port := s.port.drop 1, pos := s.pos + 1 } := rfl

/-- The fault that R62 names for must-be-zero operand bits that are not 0. -/
theorem exec_of_not_wf {i : Instr} (h : i.wf = false) (s : State) :
    ((∃ opd, i = .init opd) ∧ exec i s = raise .reservedBits i 1 s) ∨
      ((¬ ∃ opd, i = .init opd) ∧ exec i s = raise .operandRange i 1 s) := by
  cases i with
  | init opd =>
    have hbits : opd ≠ 0 := by simpa [Instr.wf] using h
    exact .inl ⟨⟨opd, rfl⟩, if_pos hbits⟩
  | char opd =>
    have hbits : above8 opd = true := by simpa [Instr.wf, above8] using h
    exact .inr ⟨by simp, if_pos hbits⟩
  | u8 opd =>
    have hbits : above8 opd = true := by simpa [Instr.wf, above8] using h
    exact .inr ⟨by simp, if_pos hbits⟩
  | u16 opd =>
    have hbits : above16 opd = true := by simpa [Instr.wf, above16] using h
    exact .inr ⟨by simp, if_pos hbits⟩
  | _ => cases h

/-- Settles O5: an operand with bits that must be 0 is refused before anything else is looked at. -/
theorem illFormedOperandsFault : Obligations.IllFormedOperandsFault := by
  intro i s hwf
  rcases exec_of_not_wf hwf s with ⟨hinit, hx⟩ | ⟨hother, hx⟩
  · exact ⟨2, .inl rfl, iff_of_true rfl hinit, hx.trans (raise_one _ _ s)⟩
  · exact ⟨3, .inr rfl, iff_of_false (by decide) hother, hx.trans (raise_one _ _ s)⟩

/-- A command that neither faults nor waits takes its own words (30_encoding.md R67). -/
theorem exec_takes_wordsOf {i : Instr} {s t : State} (hready : ∀ opd, i = .str opd →
      s.cur.toNat + opd.toNat ≤ s.bufSize.val → 1 + payloadWords opd.toNat ≤ s.port.length)
    (ht : exec i s = .next t) (h0 : t.fcause = 0) :
    t.pos = s.pos + wordsOf i ∧ t.port = s.port.drop (wordsOf i) := by
  rcases exec_cases i s with ⟨f, n, hx, -⟩ | ⟨-, opd, hi, hshort, hfit⟩ | ⟨hx, rfl⟩ | ⟨c, rfl, -, hx⟩ |
    ⟨out, n, hx, hi⟩ | ⟨v, hx, -, hi⟩ | ⟨v, hx, -, hi⟩
  · cases hx.symm.trans ht
    exact absurd h0 (faultCode_ne_zero f)
  · exact absurd (hready opd hi hfit) (Nat.not_le_of_lt hshort)
  · cases hx.symm.trans ht
    exact ⟨rfl, rfl⟩
  · cases hx.symm.trans ht
    exact ⟨rfl, rfl⟩
  · cases hx.symm.trans ht
    rcases hi with ⟨opd, rfl, rfl, -⟩ | ⟨opd, rfl, rfl, -⟩ <;> exact ⟨rfl, rfl⟩
  · cases hx.symm.trans ht
    rcases hi with ⟨opd, rfl, -⟩ | ⟨opd, rfl, -⟩ <;> exact ⟨rfl, rfl⟩
  · cases hx.symm.trans ht
    rcases hi with rfl | rfl <;> exact ⟨rfl, rfl⟩

/-- Settles O11: a block with a step has the payload of its command, so that the command does not wait. -/
theorem completedCommandsTakeTheirLength : Obligations.CompletedCommandsTakeTheirLength := by
  intro s t w rest h0 hp hs ht ht0
  cases hd : decode w with
  | error e =>
    cases (step_of_illegal_word h0 hp hd).symm.trans ht
    exact absurd ht0 (faultCode_ne_zero _)
  | ok i =>
    have hf := fetch_of_command h0 hp hd
    obtain ⟨hpos, hport⟩ :=
      exec_takes_wordsOf (payload_ready_of_hasStep hf hs) ((step_of_fetch_command hf).symm.trans ht) ht0
    obtain ⟨hlo, hhi⟩ := legal_opcode_of_decode hd
    have hlen := commandLength_eq_wordsOf hd
    have hnumber := Option.some.inj (hlen.symm.trans (commandLength_of_legal_opcode hlo hhi))
    exact ⟨wordsOf i, hlen, hpos, hport, fun hne => hnumber.trans (if_neg hne),
      fun hstr => hnumber.trans (if_pos hstr)⟩

end Sys2Proof.Proofs
end

section
/-!
PROOFS. The assembler (30_encoding.md R63, R68, R69, R70): a packed literal is read back by the block, an operand is
checked against its field, and what assembles is a well-formed command of its length.
-/

namespace Sys2Proof.Proofs

open Sys2Proof.Machine Sys2Proof.Safety

/-! ### The payload of a literal -/

theorem le_payloadWords (len : Nat) : len ≤ 8 * payloadWords len := by
  rw [payloadWords]
  omega

@[simp] theorem packPayload_length (text : List Byte) : (packPayload text).length = payloadWords text.length := by
  simp [packPayload]

/-- The bytes of a concatenation above its lowest byte. -/
theorem extractLsb'_append_byte {n : Nat} (hi : BitVec n) (lo : Byte) (r : Nat) :
    (hi ++ lo).extractLsb' (8 * (r + 1)) 8 = hi.extractLsb' (8 * r) 8 :=
  BitVec.extractLsb'_append_eq_of_le (by omega)

/-- Byte `r` of payload word `j` is byte `8 j + r` of the literal, 0 past its end (30_encoding.md R63). -/
theorem packWord_byte (text : List Byte) (j : Nat) {r : Nat} (hr : r < 8) :
    (packWord text j).extractLsb' (8 * r) 8 = text.getD (8 * j + r) 0 := by
  unfold packWord
  obtain hlow | rfl : r < 7 ∨ r = 7 := by omega
  · interval_cases r
    all_goals
      repeat rw [extractLsb'_append_byte]
      exact BitVec.extractLsb'_append_eq_right
  · repeat rw [extractLsb'_append_byte]
    exact BitVec.extractLsb'_eq_self

/-- Every byte position of the packed payload, the padding and beyond included. -/
theorem payloadByte_packPayload (text : List Byte) (k : Nat) :
    payloadByte (packPayload text) k = text.getD k 0 := by
  have hlen := le_payloadWords text.length
  by_cases hk : k / 8 < payloadWords text.length
  · have hword : (packPayload text).getD (k / 8) 0 = packWord text (k / 8) := by simp [packPayload, hk]
    rw [payloadByte, hword, packWord_byte text _ (Nat.mod_lt k (by decide)), Nat.div_add_mod]
  · have hword : (packPayload text).getD (k / 8) 0 = 0 := by simp [packPayload, hk]
    have hpast : text.getD k 0 = 0 := by
      rw [List.getD_eq_default]
      omega
    rw [payloadByte, hword, hpast]
    simp

/-- The block reads back the literal that was packed (30_encoding.md R63, R69). -/
theorem literal_packPayload (text : List Byte) : literal (packPayload text) text.length = text := by
  refine List.ext_getElem (literal_length _ _) fun k _ hk => ?_
  simp [literal, payloadByte_packPayload, hk]

theorem packPayload_padding {text : List Byte} {k : Nat} (hk : text.length ≤ k) :
    payloadByte (packPayload text) k = 0 := by
  rw [payloadByte_packPayload, List.getD_eq_default _ _ hk]

theorem paddingZero_packPayload (text : List Byte) : paddingZero (packPayload text) text.length = true := by
  refine List.all_eq_true.2 fun k hk => beq_iff_eq.2 (packPayload_padding ?_)
  exact (List.mem_range'_1.1 hk).1

/-- Settles O50: a position of the payload is a byte of the literal, or it is past its end. -/
theorem payloadPackingRoundTrips : Obligations.PayloadPackingRoundTrips :=
  fun text => ⟨packPayload_length text, literal_packPayload text, fun _ hk => packPayload_padding hk⟩

/-! ### The words of a line -/

theorem assemble_str_eq_ok {text : List Byte} {ws : List Word64} (h : assemble (.str text) = .ok ws) :
    (BitVec.ofNat 32 text.length).toNat = text.length ∧
      ws = encode (.str (BitVec.ofNat 32 text.length)) :: packPayload text := by
  rw [assemble] at h
  split_ifs at h with hlen
  exact ⟨(BitVec.toNat_ofNat _ _).trans (Nat.mod_eq_of_lt hlen), (Except.ok.inj h).symm⟩

/-- STR on a stream that holds a packed literal writes it, if there is room (41_decimal.md R94). -/
theorem execStr_packed {s : State} {w : Word64} {text : List Byte} {rest : List Word64} {opd : Word32}
    (hopd : opd.toNat = text.length) (hp : s.port = w :: packPayload text ++ rest)
    (hroom : s.cur.toNat + text.length ≤ s.bufSize.val) :
    execStr opd s = .next (emit text (consume (1 + payloadWords text.length) s)) := by
  have hcap : capacityOK s text.length = true := (capacityOK_iff _ _).2 hroom
  have hpresent : payloadPresent s text.length = true := by
    simp only [payloadPresent, hp, List.length_append, List.length_cons, packPayload_length, decide_eq_true_eq]
    omega
  have hpayload : payloadAt s text.length = packPayload text := by
    rw [payloadAt, hp, List.cons_append, List.drop_one, List.tail_cons]
    exact List.take_left' (packPayload_length text)
  simp [execStr, hopd, hcap, hpresent, hpayload, paddingZero_packPayload, literal_packPayload]

/-- Settles O51: the command word decodes to the STR of the text's length, and the payload is the packed text. -/
theorem assembledStrWritesItsText : Obligations.AssembledStrWritesItsText := by
  intro s text ws rest hasm h0 hp hroom
  obtain ⟨hopd, rfl⟩ := assemble_str_eq_ok hasm
  have hstep := (step_of_fetch_command (fetch_of_command h0 hp (decodeOfEncodeIsTheCommand _))).trans
    (execStr_packed hopd hp hroom)
  refine ⟨_, hstep, ?_, h0, rfl, emit_cur_toNat (s := consume _ s) hroom, fun a => readByte_emit text _ a⟩
  rw [emit_port, consume_port, hp]
  exact List.drop_left' (by simp [Nat.add_comm])

/-- The words are a well-formed command, of the length that its first word tells (30_encoding.md R62, R67). -/
def IsCommand (ws : List Word64) : Prop :=
  ∃ w rest i, ws = w :: rest ∧ decode w = .ok i ∧ i.wf = true ∧ commandLength w = some ws.length

theorem isCommand_encode {i : Instr} {rest : List Word64} (hwf : i.wf = true) (hlen : wordsOf i = rest.length + 1) :
    IsCommand (encode i :: rest) := by
  have hd := decodeOfEncodeIsTheCommand i
  exact ⟨_, rest, i, rfl, hd, hwf, (commandLength_eq_wordsOf hd).trans (congrArg some hlen)⟩

theorem oneWord_eq_ok {mk : Word32 → Instr} {operand : Except AsmError Word32} {ws : List Word64}
    (h : oneWord mk operand = .ok ws) : ∃ opd, operand = .ok opd ∧ ws = [encode (mk opd)] := by
  cases operand with
  | ok opd => exact ⟨opd, rfl, (Except.ok.inj h).symm⟩
  | error e => cases h

theorem isCommand_oneWord {mk : Word32 → Instr} {operand : Except AsmError Word32} {ws : List Word64}
    (h : oneWord mk operand = .ok ws) (hwf : ∀ opd, operand = .ok opd → (mk opd).wf = true)
    (hlen : ∀ opd, wordsOf (mk opd) = 1) : IsCommand ws := by
  obtain ⟨opd, hopd, rfl⟩ := oneWord_eq_ok h
  exact isCommand_encode (hwf opd hopd) (hlen opd)

/-- An unsigned operand that is accepted is below its bound (30_encoding.md R68). -/
theorem unsignedOperand_lt {bound : Nat} {n : Int} {opd : Word32} (h : unsignedOperand bound n = .ok opd) :
    opd.toNat < bound := by
  rw [unsignedOperand] at h
  split_ifs at h with hn
  obtain ⟨hlo, hhi⟩ := hn
  cases h
  rw [BitVec.toNat_ofInt]
  omega

/-- The bits of an operand above its field are 0 where its number is below the field's bound. -/
theorem extractLsb'_eq_zero_of_lt {opd : Word32} {k m : Nat} (h : opd.toNat < 2 ^ k) : opd.extractLsb' k m = 0 := by
  apply BitVec.eq_of_toNat_eq
  rw [BitVec.extractLsb'_toNat, Nat.shiftRight_eq_div_pow, Nat.div_eq_of_lt h]
  simp

theorem char_wf_of_lt {opd : Word32} (h : opd.toNat < 256) : (Instr.char opd).wf = true :=
  beq_iff_eq.2 (extractLsb'_eq_zero_of_lt h)

theorem u8_wf_of_lt {opd : Word32} (h : opd.toNat < 256) : (Instr.u8 opd).wf = true :=
  beq_iff_eq.2 (extractLsb'_eq_zero_of_lt h)

theorem u16_wf_of_lt {opd : Word32} (h : opd.toNat < 65536) : (Instr.u16 opd).wf = true :=
  beq_iff_eq.2 (extractLsb'_eq_zero_of_lt h)

/-- Settles O52, one case for each form of line: the assembler's check of a number leaves no bit above its field. -/
theorem assembledLinesAreWellFormed : Obligations.AssembledLinesAreWellFormed := by
  intro line ws h
  show IsCommand ws
  cases line with
  | init =>
    cases h
    exact isCommand_encode (by decide) rfl
  | charLiteral code =>
    rw [assemble] at h
    split_ifs at h with hcode
    cases h
    refine isCommand_encode (char_wf_of_lt ?_) rfl
    rw [BitVec.toNat_ofNat]
    omega
  | char n => exact isCommand_oneWord h (fun _ hopd => char_wf_of_lt (unsignedOperand_lt hopd)) fun _ => rfl
  | u8 n => exact isCommand_oneWord h (fun _ hopd => u8_wf_of_lt (unsignedOperand_lt hopd)) fun _ => rfl
  | u16 n => exact isCommand_oneWord h (fun _ hopd => u16_wf_of_lt (unsignedOperand_lt hopd)) fun _ => rfl
  | str text =>
    obtain ⟨hlen, rfl⟩ := assemble_str_eq_ok h
    refine isCommand_encode rfl ?_
    rw [wordsOf, hlen, packPayload_length, Nat.add_comm]
  | hex n => exact isCommand_oneWord h (fun _ _ => rfl) fun _ => rfl
  | hex2 n => exact isCommand_oneWord h (fun _ _ => rfl) fun _ => rfl
  | setcur n => exact isCommand_oneWord h (fun _ _ => rfl) fun _ => rfl

/-- A line with an unsigned operand, told by the greatest number of its field (30_encoding.md R68). -/
theorem oneWord_unsignedOperand (mk : Word32 → Instr) (max n : Int) :
    oneWord mk (unsignedOperand (max + 1) n) =
      if 0 ≤ n ∧ n ≤ max then .ok [encode (mk (BitVec.ofInt 32 n))] else .error .operandTooWide := by
  simp only [unsignedOperand, Int.lt_add_one_iff]
  split_ifs <;> rfl

/-- A line of HEX or HEX2 (30_encoding.md R68). -/
theorem oneWord_hexOperand (mk : Word32 → Instr) (n : Int) :
    oneWord mk (hexOperand n) =
      if -2147483648 ≤ n ∧ n ≤ 4294967295 then .ok [encode (mk (BitVec.ofInt 32 n))]
      else .error .operandTooWide := by
  have hmax : n < 4294967296 ↔ n ≤ 4294967295 := Int.lt_add_one_iff (b := 4294967295)
  simp only [hexOperand, hmax]
  split_ifs <;> rfl

theorem assemble_str (text : List Byte) : assemble (.str text) =
    if text.length ≤ 4294967295 then .ok (encode (.str (BitVec.ofNat 32 text.length)) :: packPayload text)
    else .error .operandTooWide := by
  have hmax : text.length < 4294967296 ↔ text.length ≤ 4294967295 := Nat.lt_succ_iff
  simp only [assemble, hmax]

/-- Settles O53, line by line. -/
theorem assemblerChecksOperands : Obligations.AssemblerChecksOperands := by
  refine ⟨fun n => ⟨?_, ?_, ?_, ?_, ?_, ?_⟩, fun _ => rfl, assemble_str⟩
  · exact oneWord_unsignedOperand .u8 255 n
  · exact oneWord_unsignedOperand .u16 65535 n
  · exact oneWord_unsignedOperand .char 255 n
  · exact oneWord_hexOperand .hex n
  · exact oneWord_hexOperand .hex2 n
  · exact oneWord_unsignedOperand .setcur 4294967295 n

/-- Settles O54, line by line. -/
theorem exampleLinesAssemble : Obligations.ExampleLinesAssemble := by
  unfold Obligations.ExampleLinesAssemble
  decide

end Sys2Proof.Proofs
end

section
/-!
PROOFS. INIT and the digit table (40_table_init.md R80 to R82, R84): the contents of a built table in numbers, what INIT
answers, and the table that the loop of R80's pseudocode leaves, by induction over each of its two loops.
-/

namespace Sys2Proof.Proofs

open Sys2Proof.Machine Sys2Proof.Safety

/-! ### The contents of a built table -/

/-- The five rows of R81's definition of `ndec`. -/
theorem ndec_rows (v : Nat) :
    (v < 10 → ndec v = 1) ∧ (10 ≤ v → v < 100 → ndec v = 2) ∧ (100 ≤ v → v < 1000 → ndec v = 3) ∧
      (1000 ≤ v → v < 10000 → ndec v = 4) ∧ (10000 ≤ v → ndec v = 5) := by
  unfold ndec
  split_ifs <;> omega

/-- The text part of a built table: `dec(v)` at the positions INIT writes, the free contents past them (R81). -/
theorem tblText_built {t : DigitTable} (h : t.built = true) (v : Word16) (i : Nat) :
    tblText t v i = if i < ndec v.toNat then decDigit v.toNat i else Config.freeTblText t.seed v i := by
  simp [tblText, h]

/-- Building a built table writes the values it holds (R82). -/
theorem buildTable_of_built {t : DigitTable} (h : t.built = true) : buildTable t = t := by
  rw [buildTable, ← h]

/-! ### The command -/

theorem exec_init_of_ne_zero {opd : Word32} (h : opd ≠ 0) (s : State) :
    exec (.init opd) s = raise .reservedBits (.init opd) 1 s := if_pos h

theorem exec_init_zero (s : State) : exec (.init 0) s = .next { s with
    table := buildTable s.table, initDone := true, port := s.port.drop 1, pos := s.pos + 1 } := by
  simp [exec, execInit]

/-- Settles O25: with OPD 0 the table becomes a built one, whose lengths are the rows of `ndec` and whose text is
`dec`. -/
theorem initPopulatesTheTable : Obligations.InitPopulatesTheTable := by
  intro s opd
  refine ⟨decodeOfEncodeIsTheCommand (.init opd), fun hbits => ?_, fun hzero => ?_⟩
  · exact (exec_init_of_ne_zero hbits s).trans (raise_one _ _ s)
  · subst hzero
    refine ⟨buildTable s.table, exec_init_zero s, fun v => ?_⟩
    have hbuilt := buildTable_built s.table
    obtain ⟨h1, h2, h3, h4, h5⟩ := ndec_rows v.toNat
    rw [tblLen_built hbuilt]
    refine ⟨h1, h2, h3, h4, h5, fun i hi => ?_⟩
    rw [tblText_built hbuilt, if_pos hi, decDigit, asciiDigit]

/-- Settles O26: by the invariant the table is built where INIT_DONE is 1. -/
theorem repeatedInitChangesNothing : Obligations.RepeatedInitChangesNothing := by
  intro s hinv hdone
  rw [exec_init_zero, buildTable_of_built (hinv.table_built hdone), hdone]

/-! ### The loop -/

/-- The text part after the first `n` rounds of the inner loop of INIT for entry `v` (R80). -/
def writeDigits (v n : Nat) (text : Nat → Nat → Byte) : Nat → Nat → Byte :=
  (List.range n).foldl (fun text i => fun x j => if x = v ∧ j = i then decDigit v i else text x j) text

/-- The contents after the first `n` rounds of the outer loop of INIT (R80). -/
def initRounds (n : Nat) (c : TableContents) : TableContents := (List.range n).foldl initRound c

theorem writeDigits_succ (v n : Nat) (text : Nat → Nat → Byte) (x j : Nat) :
    writeDigits v (n + 1) text x j = if x = v ∧ j = n then decDigit v n else writeDigits v n text x j := by
  rw [writeDigits, List.range_succ, List.foldl_append]
  rfl

theorem initRounds_succ (n : Nat) (c : TableContents) : initRounds (n + 1) c = initRound (initRounds n c) n := by
  rw [initRounds, List.range_succ, List.foldl_append]
  rfl

theorem initLoop_eq_initRounds (c : TableContents) : initLoop c = initRounds 65536 c := by
  rw [initLoop, initRounds]

/-- The inner loop writes the first `n` digits of entry `v` and keeps everything else. -/
theorem writeDigits_apply (v n : Nat) (text : Nat → Nat → Byte) (x j : Nat) :
    writeDigits v n text x j = if x = v ∧ j < n then decDigit v j else text x j := by
  induction n with
  | zero => simp [writeDigits]
  | succ n ih =>
    rw [writeDigits_succ, ih]
    by_cases hj : j = n
    · simp [hj]
    · simp [hj, Nat.le_iff_lt_or_eq]

theorem initRound_len (c : TableContents) (v x : Nat) :
    (initRound c v).len x = if x = v then ndec v else c.len x := rfl

theorem initRound_text (c : TableContents) (v x j : Nat) :
    (initRound c v).text x j = if x = v ∧ j < ndec v then decDigit v j else c.text x j :=
  writeDigits_apply v (ndec v) c.text x j

/-- The outer loop writes the lengths of the entries below `n` and keeps the others. -/
theorem initRounds_len (n : Nat) (c : TableContents) (x : Nat) :
    (initRounds n c).len x = if x < n then ndec x else c.len x := by
  induction n with
  | zero => simp [initRounds]
  | succ n ih =>
    rw [initRounds_succ, initRound_len, ih]
    by_cases hx : x = n
    · simp [hx]
    · simp [hx, Nat.le_iff_lt_or_eq]

/-- The outer loop writes the digits of the entries below `n` and keeps every other position. -/
theorem initRounds_text (n : Nat) (c : TableContents) (x j : Nat) :
    (initRounds n c).text x j = if x < n ∧ j < ndec x then decDigit x j else c.text x j := by
  induction n with
  | zero => simp [initRounds]
  | succ n ih =>
    rw [initRounds_succ, initRound_text, ih]
    by_cases hx : x = n
    · simp [hx]
    · simp [hx, Nat.le_iff_lt_or_eq]

theorem contentsOf_buildTable_len (t : DigitTable) {v : Nat} (hv : v < 65536) :
    (contentsOf (buildTable t)).len v = ndec v := by
  simp only [contentsOf, tblLen_built (buildTable_built t), BitVec.toNat_ofNat]
  rw [Nat.mod_eq_of_lt hv]

/-- A position that the loop does not write holds in the built table what it held before (R81, R84). -/
theorem contentsOf_buildTable_text (t : DigitTable) {v : Nat} (hv : v < 65536) (i : Nat) :
    (contentsOf (buildTable t)).text v i = if i < ndec v then decDigit v i else (contentsOf t).text v i := by
  have hindex : (BitVec.ofNat 16 v).toNat = v := (BitVec.toNat_ofNat v 16).trans (Nat.mod_eq_of_lt hv)
  simp only [contentsOf, tblText_built (buildTable_built t), hindex, buildTable_seed]
  split_ifs with hi
  · rfl
  · simp [tblText, hindex, hi]

/-- Settles O27: both tables hold `ndec` and `dec` at the positions the loop writes, and the old contents elsewhere. -/
theorem initLoopBuildsTheTable : Obligations.InitLoopBuildsTheTable := by
  intro t v hv
  rw [initLoop_eq_initRounds]
  refine ⟨?_, fun i => ?_⟩
  · rw [initRounds_len, if_pos hv, contentsOf_buildTable_len t hv]
  · rw [initRounds_text, contentsOf_buildTable_text t hv]
    simp only [hv, true_and]

end Sys2Proof.Proofs
end

section
/-!
PROOFS. The decimal and copy formatters (41_decimal.md R91 to R96): what `dec` writes and reads back as, the operand
fields as numbers, and each command told with its checks in numbers, from which its statement is read off clause by
clause.
-/

namespace Sys2Proof.Proofs

open Sys2Proof.Machine Sys2Proof.Safety

/-! ### Decimal text -/

/-- The last `n` decimal digits of `v`, most significant first. -/
def lowDigits (v : Nat) : Nat → List Byte
  | 0 => []
  | n + 1 => asciiDigit (v / 10 ^ n % 10) :: lowDigits v n

theorem lowDigits_eq_map (v n : Nat) :
    lowDigits v n = (List.range n).map fun i => asciiDigit (v / 10 ^ (n - 1 - i) % 10) := by
  induction n with
  | zero => rfl
  | succ n ih =>
    rw [lowDigits, ih, List.range_succ_eq_map, List.map_cons, List.map_map]
    refine congrArg₂ List.cons rfl (List.map_congr_left fun i _ => ?_)
    rw [Function.comp_apply, Nat.add_sub_cancel, Nat.succ_eq_add_one, Nat.sub_sub, Nat.add_comm 1 i]

/-- `dec(v)` is the last `ndec(v)` digits of `v` (40_table_init.md R81). -/
theorem dec_eq_lowDigits (v : Nat) : dec v = lowDigits v (ndec v) := (lowDigits_eq_map v (ndec v)).symm

theorem toNat_asciiDigit {d : Nat} (h : d < 10) : (asciiDigit d).toNat = 0x30 + d := by
  rw [asciiDigit, BitVec.toNat_ofNat]
  omega

theorem parseDecFrom_asciiDigit {d : Nat} (h : d < 10) (acc : Nat) (bs : List Byte) :
    parseDecFrom acc (asciiDigit d :: bs) = parseDecFrom (10 * acc + d) bs := by
  rw [parseDecFrom, toNat_asciiDigit h, if_pos (by omega), Nat.add_sub_cancel_left]

/-- The last `n` digits of `v` read, after `acc`, as `acc` followed by `v` modulo `10 ^ n`. -/
theorem parseDecFrom_lowDigits (v n acc : Nat) :
    parseDecFrom acc (lowDigits v n) = some (acc * 10 ^ n + v % 10 ^ n) := by
  induction n generalizing acc with
  | zero => simp [lowDigits, parseDecFrom, Nat.mod_one]
  | succ n ih =>
    rw [lowDigits, parseDecFrom_asciiDigit (Nat.mod_lt _ (by decide)), ih, Nat.mod_pow_succ]
    congr 1
    ring

/-- `ndec(v)` digits suffice for a 16-bit value (10_state.md R22). -/
theorem lt_pow_ndec {v : Nat} (h : v < 65536) : v < 10 ^ ndec v := by
  unfold ndec
  split_ifs <;> omega

/-- Fewer than `ndec(v)` digits do not. -/
theorem pow_ndec_le {v : Nat} (h : v ≠ 0) : 10 ^ (ndec v - 1) ≤ v := by
  unfold ndec
  split_ifs <;> omega

/-- The first digit of a value that needs all its digits is not `0`. -/
theorem head_lowDigits_ne {v n : Nat} (hlo : 10 ^ n ≤ v) (hhi : v < 10 ^ (n + 1)) :
    (lowDigits v (n + 1)).head? ≠ some 0x30 := by
  have hpos : 0 < v / 10 ^ n := Nat.div_pos hlo (Nat.pow_pos (by decide))
  have hlt : v / 10 ^ n < 10 := Nat.div_lt_of_lt_mul (by rwa [← Nat.pow_succ])
  intro hzero
  have hdigit : asciiDigit (v / 10 ^ n % 10) = 0x30 := Option.some.inj hzero
  have hcode := congrArg BitVec.toNat hdigit
  rw [Nat.mod_eq_of_lt hlt, toNat_asciiDigit hlt, show (0x30 : Byte).toNat = 0x30 from rfl] at hcode
  omega

/-- Settles O28: `dec(v)` is the last `ndec(v)` digits of `v`, which are all of them and no more. -/
theorem decimalTextParsesBack : Obligations.DecimalTextParsesBack := by
  intro v hv
  have hpos := ndec_pos v
  have hlt := lt_pow_ndec hv
  refine ⟨?_, dec_length v, hpos, hlt, fun hne => ⟨pow_ndec_le hne, ?_⟩⟩
  · rw [dec_eq_lowDigits, parseDecFrom_lowDigits, Nat.zero_mul, Nat.zero_add, Nat.mod_eq_of_lt hlt]
  · obtain ⟨n, hn⟩ : ∃ n, ndec v = n + 1 := ⟨ndec v - 1, by omega⟩
    have hle := pow_ndec_le hne
    rw [hn] at hlt hle
    rw [dec_eq_lowDigits, hn]
    exact head_lowDigits_ne hle hlt

/-! ### Operand fields as numbers -/

theorem opd8_eq_setWidth (opd : Word32) : opd8 opd = opd.setWidth 8 := by
  apply BitVec.eq_of_toNat_eq
  simp [opd8]

section Fields
variable {opd : Word32}

/-- The bits of an operand from bit `k` up are 0 exactly where its number is below `2 ^ k`. -/
theorem extractLsb'_eq_zero_iff_lt {k m : Nat} (hkm : k + m = 32) : opd.extractLsb' k m = 0 ↔ opd.toNat < 2 ^ k := by
  refine ⟨fun h => ?_, extractLsb'_eq_zero_of_lt⟩
  have hbits := congrArg BitVec.toNat h
  have hlt : opd.toNat / 2 ^ k < 2 ^ m := Nat.div_lt_of_lt_mul (by rw [← Nat.pow_add, hkm]; exact opd.isLt)
  rw [BitVec.extractLsb'_toNat, Nat.shiftRight_eq_div_pow, Nat.mod_eq_of_lt hlt] at hbits
  exact (Nat.div_eq_zero_iff_lt (Nat.pow_pos (by decide))).1 hbits

theorem above8_iff : above8 opd = true ↔ 256 ≤ opd.toNat := by
  rw [above8, bne_iff_ne, ne_eq, extractLsb'_eq_zero_iff_lt rfl, Nat.not_lt]
  rfl

theorem above16_iff : above16 opd = true ↔ 65536 ≤ opd.toNat := by
  rw [above16, bne_iff_ne, ne_eq, extractLsb'_eq_zero_iff_lt rfl, Nat.not_lt]
  rfl

theorem toNat_opd8 (h : opd.toNat < 256) : (opd8 opd).toNat = opd.toNat := by
  rw [opd8_eq_setWidth, BitVec.toNat_setWidth]
  exact Nat.mod_eq_of_lt h

theorem toNat_u8Index (h : opd.toNat < 256) : (u8Index opd).toNat = opd.toNat := by
  rw [u8Index, BitVec.toNat_setWidth, toNat_opd8 h]
  omega

theorem toNat_opd16 (h : opd.toNat < 65536) : (opd16 opd).toNat = opd.toNat := by
  simp only [opd16, BitVec.extractLsb'_toNat, Nat.shiftRight_zero]
  exact Nat.mod_eq_of_lt h

/-- The digit codes (41_decimal.md R91). -/
theorem isDigitCode_eq_false (c : Byte) : isDigitCode c = false ↔ c.toNat < 0x30 ∨ 0x39 < c.toNat := by
  simp only [isDigitCode, Bool.and_eq_false_iff, decide_eq_false_iff_not, Nat.not_le]

end Fields

/-! ### The commands, with their checks in numbers -/

/-- The meaning that U8 and U16 share (41_decimal.md R92, R93): the operand is below `limit`, INIT is done, `room`
bytes fit; then table entry `v` at the cursor. -/
def renderEntry (mk : Word32 → Instr) (opd : Word32) (limit room : Nat) (v : Word16) (s : State) :
    Host.Outcome State Fault Refusal :=
  if limit ≤ opd.toNat then raise .operandRange (mk opd) 1 s
  else if s.initDone = false then raise .notInit (mk opd) 1 s
  else if s.bufSize.val < s.cur.toNat + room then raise .bufOverflow (mk opd) 1 s
  else .next (emitEntry v (consume 1 s))

section Commands
variable (opd : Word32) (s : State)

theorem exec_char : exec (.char opd) s =
    if 256 ≤ opd.toNat then raise .operandRange (.char opd) 1 s
    else if (opd8 opd).toNat < 0x30 ∨ 0x39 < (opd8 opd).toNat then raise .notDigit (.char opd) 1 s
    else if s.bufSize.val < s.cur.toNat + 1 then raise .bufOverflow (.char opd) 1 s
    else .next (emit [opd8 opd] (consume 1 s)) := by
  simp only [exec, execChar, above8_iff, Bool.not_eq_true', isDigitCode_eq_false, capacityOK_eq_false]

theorem exec_u8 : exec (.u8 opd) s = renderEntry .u8 opd 256 3 (u8Index opd) s := by
  simp only [exec, execU8, above8_iff, Bool.not_eq_true', capacityOK_eq_false, renderEntry]

theorem exec_u16 : exec (.u16 opd) s = renderEntry .u16 opd 65536 5 (opd16 opd) s := by
  simp only [exec, execU16, above16_iff, Bool.not_eq_true', capacityOK_eq_false, renderEntry]

theorem exec_str : exec (.str opd) s =
    if s.bufSize.val < s.cur.toNat + opd.toNat then raise .bufOverflow (.str opd) 1 s
    else if s.port.length < 1 + (opd.toNat + 7) / 8 then .next s
    else if paddingZero (payloadAt s opd.toNat) opd.toNat = false then
      raise .padNonZero (.str opd) (1 + (opd.toNat + 7) / 8) s
    else .next (emit (literal (payloadAt s opd.toNat) opd.toNat) (consume (1 + (opd.toNat + 7) / 8) s)) := by
  simp only [exec, execStr, Bool.not_eq_true', capacityOK_eq_false, payloadPresent_eq_false, payloadWords]

end Commands

/-! ### CHAR, U8 and U16 -/

/-- A run of one byte covers its own address alone. -/
theorem overlay_singleton (start : Nat) (b : Byte) (old : Option Byte) (a : Nat) :
    overlay start [b] old a = if a = start then some b else old := by
  rw [overlay, List.length_singleton]
  by_cases ha : a = start
  · subst ha
    simp
  · rw [if_neg (by omega), if_neg ha]

/-- Settles O29, check by check. -/
theorem charWritesOneDigit : Obligations.CharWritesOneDigit := by
  intro s opd
  refine ⟨decodeOfEncodeIsTheCommand (.char opd), fun hwide => ?_, fun hfield hdigit => ?_, fun hlo hhi hfull => ?_,
    fun hlo hhi hroom => ?_⟩
  · rw [exec_char, if_pos hwide]
    exact raise_one _ _ s
  · rw [exec_char, toNat_opd8 hfield, if_neg (by omega), if_pos hdigit]
    exact raise_one _ _ s
  · have hfield : opd.toNat < 256 := by omega
    rw [exec_char, toNat_opd8 hfield, if_neg (by omega), if_neg (by omega), if_pos hfull]
    exact raise_one _ _ s
  · have hfield : opd.toNat < 256 := by omega
    rw [exec_char, toNat_opd8 hfield, if_neg (by omega), if_neg (by omega), if_neg (by omega), opd8_eq_setWidth]
    exact ⟨_, rfl, fun a => (readByte_emit _ (consume 1 s) a).trans (overlay_singleton _ _ _ a)⟩

/-- What U8 and U16 do to the block from a built table (41_decimal.md R92, R93). -/
theorem emitEntry_of_built {s : State} (hbuilt : s.table.built = true) {v : Word16} {n : Nat} (hv : v.toNat = n) :
    ∃ m, emitEntry v (consume 1 s) = { s with
        buf := m, cur := s.cur + BitVec.ofNat 32 (ndec n), res := BitVec.ofNat 32 (ndec n)
        port := s.port.drop 1, pos := s.pos + 1 } ∧
      ∀ a, readByte m a = overlay s.cur.toNat (dec n) (readByte s.buf a) a := by
  refine ⟨(emit (dec n) (consume 1 s)).buf, ?_, fun a => readByte_emit (dec n) (consume 1 s) a⟩
  rw [emitEntry, consume_table, tblLen_built hbuilt, tblEntry_built hbuilt, hv, emit, dec_length]
  rfl

section RenderEntry
variable {mk : Word32 → Instr} {opd : Word32} {limit room : Nat} {v : Word16} {s : State}

theorem renderEntry_of_accepted (hfield : opd.toNat < limit) (hinit : s.initDone = true)
    (hroom : s.cur.toNat + room ≤ s.bufSize.val) :
    renderEntry mk opd limit room v s = .next (emitEntry v (consume 1 s)) := by
  rw [renderEntry, if_neg (Nat.not_le.2 hfield), if_neg (Bool.ne_false_iff.2 hinit), if_neg (Nat.not_lt.2 hroom)]

/-- The contract of R92 and R93: the three faults in their order, or the decimal text of the value that the entry's
index stands for. -/
theorem renderEntry_writes_decimal (hv : opd.toNat < limit → v.toNat = opd.toNat) :
    (limit ≤ opd.toNat → renderEntry mk opd limit room v s = raise .operandRange (mk opd) 1 s) ∧
    (opd.toNat < limit → s.initDone = false → renderEntry mk opd limit room v s = raise .notInit (mk opd) 1 s) ∧
    (opd.toNat < limit → s.initDone = true → s.bufSize.val < s.cur.toNat + room →
      renderEntry mk opd limit room v s = raise .bufOverflow (mk opd) 1 s) ∧
    (opd.toNat < limit → s.initDone = true → s.table.built = true → s.cur.toNat + room ≤ s.bufSize.val →
      ∃ m, renderEntry mk opd limit room v s = .next { s with
          buf := m, cur := s.cur + BitVec.ofNat 32 (ndec opd.toNat)
          res := BitVec.ofNat 32 (ndec opd.toNat), port := s.port.drop 1, pos := s.pos + 1 } ∧
        ∀ a, readByte m a = overlay s.cur.toNat (dec opd.toNat) (readByte s.buf a) a) := by
  refine ⟨fun hwide => ?_, fun hfield hinit => ?_, fun hfield hinit hfull => ?_,
    fun hfield hinit hbuilt hroom => ?_⟩
  · rw [renderEntry, if_pos hwide]
  · rw [renderEntry, if_neg (Nat.not_le.2 hfield), if_pos hinit]
  · rw [renderEntry, if_neg (Nat.not_le.2 hfield), if_neg (Bool.ne_false_iff.2 hinit), if_pos hfull]
  · obtain ⟨m, hend, hmem⟩ := emitEntry_of_built hbuilt (hv hfield)
    exact ⟨m, (renderEntry_of_accepted hfield hinit hroom).trans (congrArg _ hend), hmem⟩

end RenderEntry

/-- Settles O30: U8 renders the entry of its 8-bit operand. -/
theorem u8WritesDecimal : Obligations.U8WritesDecimal := by
  intro s opd
  rw [exec_u8]
  exact ⟨decodeOfEncodeIsTheCommand (.u8 opd), renderEntry_writes_decimal toNat_u8Index⟩

/-- Settles O31: U16 renders the entry of its 16-bit operand. -/
theorem u16WritesDecimal : Obligations.U16WritesDecimal := by
  intro s opd
  rw [exec_u16]
  exact ⟨decodeOfEncodeIsTheCommand (.u16 opd), renderEntry_writes_decimal toNat_opd16⟩

/-- Settles O33: below 256 both index the same table entry. -/
theorem u8AndU16Agree : Obligations.U8AndU16Agree := by
  intro s opd hfield hinit hroom
  have hfield16 : opd.toNat < 65536 := by omega
  have hroom3 : s.cur.toNat + 3 ≤ s.bufSize.val := by omega
  have hindex : u8Index opd = opd16 opd :=
    BitVec.eq_of_toNat_eq ((toNat_u8Index hfield).trans (toNat_opd16 hfield16).symm)
  refine ⟨emitEntry (opd16 opd) (consume 1 s), ?_, ?_⟩
  · rw [exec_u8, renderEntry_of_accepted hfield hinit hroom3, hindex]
  · rw [exec_u16, renderEntry_of_accepted hfield16 hinit hroom]

/-! ### STR -/

/-- Byte `k` of the stream behind the next command word, in the order of R63. -/
def streamByte (s : State) (k : Nat) : Byte := (s.port.getD (1 + k / 8) 0).extractLsb' (8 * (k % 8)) 8

section Payload
variable (s : State) (len : Nat)

theorem payloadByte_payloadAt {k : Nat} (hk : k < 8 * payloadWords len) :
    payloadByte (payloadAt s len) k = streamByte s k := by
  have hword : (payloadAt s len).getD (k / 8) 0 = s.port.getD (1 + k / 8) 0 := by
    rw [List.getD_eq_getElem?_getD, List.getD_eq_getElem?_getD, payloadAt, List.getElem?_take_of_lt (by omega),
      List.getElem?_drop]
  rw [payloadByte, hword, streamByte]

/-- The padding check, byte by byte on the stream (30_encoding.md R63). -/
theorem paddingZero_payloadAt_iff : paddingZero (payloadAt s len) len = true ↔
    ∀ k, len ≤ k → k < 8 * payloadWords len → streamByte s k = 0 := by
  have hend : len + (8 * payloadWords len - len) = 8 * payloadWords len :=
    Nat.add_sub_of_le (le_payloadWords len)
  simp only [paddingZero, List.all_eq_true, List.mem_range'_1, hend, beq_iff_eq, and_imp]
  refine forall_congr' fun k => imp_congr_right fun _ => imp_congr_right fun hk => ?_
  rw [payloadByte_payloadAt s len hk]

/-- The literal of a payload that is on the stream (30_encoding.md R63). -/
theorem literal_payloadAt : literal (payloadAt s len) len = (List.range len).map (streamByte s) := by
  have hfits := le_payloadWords len
  refine List.map_congr_left fun k hk => payloadByte_payloadAt s len ?_
  have hlt := List.mem_range.1 hk
  omega

/-- Every byte of BUF after the first `len` bytes of a stream are written from `start` (20_memory.md R45). -/
theorem overlay_streamByte (start : Nat) (old : Option Byte) (a : Nat) :
    overlay start ((List.range len).map (streamByte s)) old a =
      if start ≤ a ∧ a < start + len then some (streamByte s (a - start)) else old := by
  rw [overlay, List.length_map, List.length_range]
  refine if_ctx_congr Iff.rfl (fun ⟨hlo, hhi⟩ => ?_) fun _ => rfl
  rw [List.getElem?_map, List.getElem?_range (by omega), Option.map_some]

end Payload

/-- What a STR that passes its checks does to the block (41_decimal.md R94). -/
theorem emit_literal_payloadAt (s : State) (opd : Word32) (n : Nat) :
    ∃ m, emit (literal (payloadAt s opd.toNat) opd.toNat) (consume n s) = { s with
        buf := m, cur := s.cur + opd, port := s.port.drop n, pos := s.pos + n } ∧
      ∀ a, readByte m a = if s.cur.toNat ≤ a ∧ a < s.cur.toNat + opd.toNat
        then some (streamByte s (a - s.cur.toNat)) else readByte s.buf a := by
  refine ⟨(emit (literal (payloadAt s opd.toNat) opd.toNat) (consume n s)).buf, ?_, fun a => ?_⟩
  · rw [emit, literal_length, BitVec.ofNat_toNat, BitVec.setWidth_eq]
    rfl
  · rw [readByte_emit, literal_payloadAt, overlay_streamByte]
    rfl

/-- Settles O32: the bytes that the padding check and the copy look at are those of the stream. -/
theorem strCopiesTheLiteral : Obligations.StrCopiesTheLiteral := by
  intro s opd len p byte
  have hpad : paddingZero (payloadAt s len) len = true ↔ ∀ k, len ≤ k → k < 8 * p → byte k = 0 :=
    paddingZero_payloadAt_iff s len
  refine ⟨decodeOfEncodeIsTheCommand (.str opd), fun hfull => ?_, fun hroom hshort => ?_,
    fun hroom hthere ⟨k, hlo, hhi, hne⟩ => ?_, fun hroom hthere hzero => ?_⟩
  · rw [exec_str, if_pos hfull]
    exact raise_one _ _ s
  · rw [exec_str, if_neg (Nat.not_lt.2 hroom), if_pos hshort]
  · have hbad : paddingZero (payloadAt s len) len = false :=
      Bool.eq_false_iff.2 fun hzero => hne (hpad.1 hzero k hlo hhi)
    rw [exec_str, if_neg (Nat.not_lt.2 hroom), if_neg (Nat.not_lt.2 hthere), if_pos hbad]
    rfl
  · have hgood : paddingZero (payloadAt s len) len ≠ false := Bool.ne_false_iff.2 (hpad.2 hzero)
    obtain ⟨m, hcopy, hmem⟩ := emit_literal_payloadAt s opd (1 + p)
    rw [exec_str, if_neg (Nat.not_lt.2 hroom), if_neg (Nat.not_lt.2 hthere), if_neg hgood, hcopy]
    exact ⟨m, rfl, hmem⟩

end Sys2Proof.Proofs
end

section
/-!
PROOFS. Hex rendering (42_hex.md R110, R111): nibbles as base-16 digits, `nhex` as the least length, the scan from a
started state as the common form of `hexstr` and of the source's algorithm, and the number that hex text reads back as.
-/

namespace Sys2Proof.Proofs

open Sys2Proof.Machine Sys2Proof.Safety

section Rendering
variable (v : Word32)

/-! ### Nibbles and the length -/

/-- Nibble `k` is base-16 digit `k` of the unsigned pattern. -/
theorem nib_eq_ofNat (k : Nat) : nib v k = BitVec.ofNat 4 (v.toNat / 16 ^ k) := by
  rw [nib, BitVec.extractLsb', Nat.shiftRight_eq_div_pow, Nat.pow_mul]

theorem toNat_nib (k : Nat) : (nib v k).toNat = v.toNat / 16 ^ k % 16 := by
  rw [nib_eq_ofNat, BitVec.toNat_ofNat]

variable {v}

/-- The top nibble of a value of at most `k + 1` digits is 0 exactly where `k` digits suffice. -/
theorem nib_eq_zero_iff {k : Nat} (h : v.toNat < 16 ^ (k + 1)) : nib v k = 0 ↔ v.toNat < 16 ^ k := by
  have hdigit : v.toNat / 16 ^ k < 16 := Nat.div_lt_of_lt_mul (by rwa [← Nat.pow_succ])
  rw [← BitVec.toNat_inj, toNat_nib, Nat.mod_eq_of_lt hdigit]
  exact Nat.div_eq_zero_iff_lt (Nat.pow_pos (by decide))

/-- In a value of at most `n + 1` digits nothing stands above the nibble that the search down from `n` finds. -/
theorem lt_pow_topNibble {n : Nat} (h : v.toNat < 16 ^ (n + 1)) : v.toNat < 16 ^ (topNibble v n + 1) := by
  induction n with
  | zero => exact h
  | succ n ih =>
    rw [topNibble]
    split_ifs with htop
    · exact h
    · exact ih ((nib_eq_zero_iff h).1 (not_not.1 htop))

/-- The nibble that the search finds in a value other than 0 is not 0. -/
theorem pow_topNibble_le (hne : v ≠ 0) {n : Nat} (h : v.toNat < 16 ^ (n + 1)) : 16 ^ topNibble v n ≤ v.toNat := by
  induction n with
  | zero => exact Nat.pos_of_ne_zero fun hzero => hne (BitVec.eq_of_toNat_eq hzero)
  | succ n ih =>
    rw [topNibble]
    split_ifs with htop
    · exact Nat.not_lt.1 fun hlt => htop ((nib_eq_zero_iff h).2 hlt)
    · exact ih ((nib_eq_zero_iff h).1 (not_not.1 htop))

theorem nhex_of_ne_zero (hne : v ≠ 0) : nhex v = topNibble v 7 + 1 := by
  rw [nhex, if_neg hne, Nat.add_comm]

variable (v)

/-- `nhex(v)` digits suffice. -/
theorem lt_pow_nhex : v.toNat < 16 ^ nhex v := by
  by_cases hzero : v = 0
  · subst hzero
    decide
  · rw [nhex_of_ne_zero hzero]
    exact lt_pow_topNibble v.isLt

variable {v}

/-- Fewer digits do not. -/
theorem pow_nhex_le (hne : v ≠ 0) : 16 ^ (nhex v - 1) ≤ v.toNat := by
  rw [nhex_of_ne_zero hne, Nat.add_sub_cancel]
  exact pow_topNibble_le hne v.isLt

/-- The range form of `nhex` (R110): the least positive number of digits that hold the value. -/
theorem nhex_le_of_lt_pow {n : Nat} (hpos : 1 ≤ n) (h : v.toNat < 16 ^ n) : nhex v ≤ n := by
  by_cases hzero : v = 0
  · subst hzero
    exact hpos
  · have hpow : 16 ^ (nhex v - 1) < 16 ^ n := lt_of_le_of_lt (pow_nhex_le hzero) h
    have hlt := (Nat.pow_lt_pow_iff_right (by decide)).1 hpow
    omega

/-- The first digit of a value other than 0 is not 0. -/
theorem leading_nib_ne_zero (hne : v ≠ 0) {m : Nat} (hm : nhex v = m + 1) : nib v m ≠ 0 := by
  have hlt := lt_pow_nhex v
  have hle := pow_nhex_le hne
  rw [hm] at hlt hle
  exact fun hzero => Nat.not_lt.2 hle ((nib_eq_zero_iff hlt).1 hzero)

/-! ### The scan -/

variable (v)

theorem hexScanFrom_started (n : Nat) : hexScanFrom v (n + 1) true = hexd (nib v n) :: hexScanFrom v n true := by
  rw [hexScanFrom, if_pos (Or.inl rfl)]

/-- A scan that has started emits every nibble that is left. -/
theorem hexScanFrom_started_eq_map (n : Nat) :
    hexScanFrom v n true = (List.range n).map fun i => hexd (nib v (n - 1 - i)) := by
  induction n with
  | zero => rfl
  | succ n ih =>
    rw [hexScanFrom_started, ih, List.range_succ_eq_map, List.map_cons, List.map_map]
    refine congrArg₂ List.cons rfl (List.map_congr_left fun i _ => ?_)
    rw [Function.comp_apply, Nat.add_sub_cancel, Nat.succ_eq_add_one, Nat.sub_sub, Nat.add_comm 1 i]

/-- `hexstr(v)` is what is left to emit from the first digit on. -/
theorem hexstr_eq_hexScanFrom : hexstr v = hexScanFrom v (nhex v) true :=
  (hexScanFrom_started_eq_map v (nhex v)).symm

/-- A scan that has not started starts at the first digit. -/
theorem hexScanFrom_nhex : hexScanFrom v (nhex v) false = hexScanFrom v (nhex v) true := by
  obtain ⟨m, hm⟩ : ∃ m, nhex v = m + 1 := Nat.exists_eq_add_of_le' (nhex_pos v)
  have hstart : nib v m ≠ 0 ∨ m = 0 := by
    by_cases hzero : v = 0
    · subst hzero
      exact .inr (Nat.succ.inj hm.symm)
    · exact .inl (leading_nib_ne_zero hzero hm)
  rw [hm, hexScanFrom_started, hexScanFrom, if_pos (Or.inr hstart)]

variable {v}

/-- A scan that has not started skips the zero nibbles above the first digit. -/
theorem hexScanFrom_of_nhex_le {n : Nat} (hn : nhex v ≤ n) : hexScanFrom v n false = hexstr v := by
  induction n, hn using Nat.le_induction with
  | base => rw [hexScanFrom_nhex, hexstr_eq_hexScanFrom]
  | succ n hn ih =>
    have hpos := nhex_pos v
    have hlt : v.toNat < 16 ^ n := lt_of_lt_of_le (lt_pow_nhex v) (Nat.pow_le_pow_right (by decide) hn)
    have hskip : nib v n = 0 :=
      (nib_eq_zero_iff (hlt.trans_le (Nat.pow_le_pow_right (by decide) n.le_succ))).2 hlt
    have hcond : ¬(false = true ∨ nib v n ≠ 0 ∨ n = 0) := by
      rintro (hstarted | hdigit | hlast)
      · exact Bool.false_ne_true hstarted
      · exact hdigit hskip
      · omega
    rw [hexScanFrom, if_neg hcond, ih]

end Rendering

/-- Settles O38: the eight nibbles are enough for every value, so the scan reaches the first digit. -/
theorem nibbleScanGivesHexstr : Obligations.NibbleScanGivesHexstr := fun v => hexScanFrom_of_nhex_le (nhex_le v)

/-- Settles O37: `nhex` by the digits that hold the value, the text by what `hexstr` emits at each place. -/
theorem nhexIsTheLeastLength : Obligations.NhexIsTheLeastLength := by
  intro v
  refine ⟨nhex_pos v, nhex_le v, lt_pow_nhex v, fun n => nhex_le_of_lt_pow, hexstr_length v, fun i hi => ?_⟩
  rw [hexstr, List.getElem?_map, List.getElem?_range hi, Option.map_some, nib_eq_ofNat]

/-! ### Reading hex text back -/

/-- A byte of the ROM reads as the nibble it stands for (10_state.md R23). -/
theorem parseHexFrom_hexd (d : Nibble) (acc : Nat) (bs : List Byte) :
    parseHexFrom acc (hexd d :: bs) = parseHexFrom (16 * acc + d.toNat) bs := by
  obtain ⟨hdecimal, hletter⟩ := hexRomContents
  have hd := d.isLt
  rcases Nat.lt_or_ge d.toNat 10 with hlt | hge
  · rw [parseHexFrom, hdecimal d hlt, if_pos (by omega), Nat.add_sub_cancel_left]
  · rw [parseHexFrom, hletter d hge, if_neg (by omega), if_pos (by omega)]
    congr 2
    omega

/-- Only nibble 0 has the digit `0`. -/
theorem hexd_ne_of_ne_zero {d : Nibble} (h : d ≠ 0) : hexd d ≠ 0x30 := by
  revert d
  decide

/-- The last `n` nibbles of `v` read, after `acc`, as `acc` followed by `v` modulo `16 ^ n`. -/
theorem parseHexFrom_hexScanFrom (v : Word32) (n acc : Nat) :
    parseHexFrom acc (hexScanFrom v n true) = some (acc * 16 ^ n + v.toNat % 16 ^ n) := by
  induction n generalizing acc with
  | zero => simp [hexScanFrom, parseHexFrom, Nat.mod_one]
  | succ n ih =>
    rw [hexScanFrom_started, parseHexFrom_hexd, ih, toNat_nib, Nat.mod_pow_succ]
    congr 1
    ring

/-- Hex text reads back as the unsigned pattern (R111). -/
theorem parseHexFrom_hexstr (v : Word32) : parseHexFrom 0 (hexstr v) = some v.toNat := by
  rw [hexstr_eq_hexScanFrom, parseHexFrom_hexScanFrom, Nat.zero_mul, Nat.zero_add, Nat.mod_eq_of_lt (lt_pow_nhex v)]

theorem head_hexstr_ne {v : Word32} (hne : v ≠ 0) : (hexstr v).head? ≠ some 0x30 := by
  obtain ⟨m, hm⟩ : ∃ m, nhex v = m + 1 := Nat.exists_eq_add_of_le' (nhex_pos v)
  rw [hexstr_eq_hexScanFrom, hm, hexScanFrom_started, List.head?_cons]
  exact fun hzero => hexd_ne_of_ne_zero (leading_nib_ne_zero hne hm) (Option.some.inj hzero)

/-- The two's-complement pattern of a negative number (R111). -/
theorem toNat_ofInt_of_neg {n : Int} (hlo : -2147483648 ≤ n) (hneg : n < 0) :
    (BitVec.ofInt 32 n).toNat = (n + 4294967296).toNat := by
  rw [BitVec.toNat_ofInt]
  omega

/-- Settles O39: the digits of `hexstr` are all the digits of the value, and a negative number's pattern is its
two's complement. -/
theorem hexTextParsesBack : Obligations.HexTextParsesBack := by
  refine ⟨fun v => ⟨parseHexFrom_hexstr v, head_hexstr_ne⟩, fun n hlo hneg => ?_⟩
  rw [parseHexFrom_hexstr, toNat_ofInt_of_neg hlo hneg]

end Sys2Proof.Proofs
end

section
/-!
PROOFS. The hex formatters (42_hex.md R112 to R114): HEX and HEX2 as one meaning that differs in the recorded command
alone.
-/

namespace Sys2Proof.Proofs

open Sys2Proof.Machine Sys2Proof.Safety

/-- The meaning that HEX and HEX2 share (R112, R113): 8 bytes fit; then the hex text of `opd` at the cursor. The command
`i` is only recorded by the fault. -/
def renderHex (i : Instr) (opd : Word32) (s : State) : Host.Outcome State Fault Refusal :=
  if s.bufSize.val < s.cur.toNat + 8 then raise .bufOverflow i 1 s else .next (emitHex opd (consume 1 s))

section Commands
variable (opd : Word32) (s : State)

theorem exec_hex : exec (.hex opd) s = renderHex (.hex opd) opd s := by
  simp only [exec, execHex, Bool.not_eq_true', capacityOK_eq_false, renderHex]

theorem exec_hex2 : exec (.hex2 opd) s = renderHex (.hex2 opd) opd s := by
  simp only [exec, execHex2, Bool.not_eq_true', capacityOK_eq_false, renderHex]

end Commands

section RenderHex
variable {i : Instr} {opd : Word32} {s : State}

theorem renderHex_of_full (hfull : s.bufSize.val < s.cur.toNat + 8) :
    renderHex i opd s = raise .bufOverflow i 1 s := if_pos hfull

theorem renderHex_of_room (hroom : s.cur.toNat + 8 ≤ s.bufSize.val) :
    renderHex i opd s = .next (emitHex opd (consume 1 s)) := if_neg (Nat.not_lt.2 hroom)

/-- The contract of R112 and R113: the fault, or the hex text. -/
theorem renderHex_writes_hex :
    (s.bufSize.val < s.cur.toNat + 8 → renderHex i opd s = raise .bufOverflow i 1 s) ∧
    (s.cur.toNat + 8 ≤ s.bufSize.val →
      ∃ m, renderHex i opd s = .next { s with
          buf := m, cur := s.cur + BitVec.ofNat 32 (nhex opd), res := BitVec.ofNat 32 (nhex opd)
          port := s.port.drop 1, pos := s.pos + 1 } ∧
        ∀ a, readByte m a = overlay s.cur.toNat (hexstr opd) (readByte s.buf a) a) := by
  refine ⟨renderHex_of_full, fun hroom =>
    ⟨(emit (hexstr opd) (consume 1 s)).buf, ?_, fun a => readByte_emit (hexstr opd) (consume 1 s) a⟩⟩
  rw [renderHex_of_room hroom, emitHex, emit, hexstr_length]
  rfl

end RenderHex

/-- Settles O34: HEX is the shared meaning under opcode 0x06. -/
theorem hexWritesHexText : Obligations.HexWritesHexText := by
  intro s opd
  rw [exec_hex]
  exact ⟨decodeOfEncodeIsTheCommand (.hex opd), renderHex_writes_hex⟩

/-- Settles O35: HEX2 is the shared meaning under opcode 0x07. -/
theorem hex2WritesHexText : Obligations.Hex2WritesHexText := by
  intro s opd
  rw [exec_hex2]
  exact ⟨decodeOfEncodeIsTheCommand (.hex2 opd), renderHex_writes_hex⟩

/-- Settles O36: the command is recorded by the fault alone, in FCMD alone. -/
theorem hexAndHex2AreEquivalent : Obligations.HexAndHex2AreEquivalent := by
  intro s opd
  rw [exec_hex, exec_hex2]
  rcases Nat.lt_or_ge s.bufSize.val (s.cur.toNat + 8) with hfull | hroom
  · rw [renderHex_of_full hfull, renderHex_of_full hfull]
    exact ⟨_, _, rfl, rfl, rfl, fun hroom => absurd hfull (Nat.not_lt.2 hroom)⟩
  · rw [renderHex_of_room hroom, renderHex_of_room hroom]
    exact ⟨_, _, rfl, rfl, rfl, fun _ => rfl⟩

end Sys2Proof.Proofs
end

section
/-!
PROOFS. The cursor (43_cursor.md R120, R121; 20_memory.md R44, R45): SETCUR's check in numbers, and a sequence of
conversions as one long write. A conversion takes its own words and writes its own text at CUR; two runs of such
commands, one behind the other, take the words of both and write both texts without a gap.
-/

namespace Sys2Proof.Proofs

open Sys2Proof.Machine Sys2Proof.Safety

/-! ### SETCUR -/

theorem exec_setcur (opd : Word32) (s : State) : exec (.setcur opd) s =
    if s.bufSize.val < opd.toNat then raise .cursorRange (.setcur opd) 1 s
    else .next { consume 1 s with cur := opd } := rfl

/-- Settles O41: the one check of SETCUR tells the fault from the load. -/
theorem setcurLoadsTheCursor : Obligations.SetcurLoadsTheCursor := by
  intro s opd
  refine ⟨decodeOfEncodeIsTheCommand (.setcur opd), fun hbeyond => ?_, fun hlegal => ?_⟩
  · rw [exec_setcur, if_pos hbeyond]
    exact raise_one _ _ s
  · rw [exec_setcur, if_neg (Nat.not_lt.2 hlegal)]
    rfl

/-! ### Words taken and text written -/

/-- From `s` to `t` the block has taken exactly `ws` from the stream and written exactly `text` at the cursor, which
has moved past it; the size of BUF, STATUS and the digit table are as they were. RES and FCMD are left open. -/
structure Renders (ws : List Word64) (text : List Byte) (s t : State) : Prop where
  port : s.port = ws ++ t.port
  pos : t.pos = s.pos + ws.length
  buf : t.buf = memWrite s.buf s.cur.toNat text
  cur : t.cur.toNat = s.cur.toNat + text.length
  bufSize : t.bufSize = s.bufSize
  initDone : t.initDone = s.initDone
  table : t.table = s.table
  fcause : t.fcause = s.fcause

/-- Bytes written one run behind the other are one run. -/
theorem memWrite_append (xs ys : List Byte) (m : Memory) (start : Nat) :
    memWrite m start (xs ++ ys) = memWrite (memWrite m start xs) (start + xs.length) ys := by
  induction xs generalizing m start with
  | nil => rfl
  | cons x xs ih =>
    rw [List.cons_append, memWrite, memWrite, ih, List.length_cons, Nat.add_assoc, Nat.add_comm 1]

section Renders
variable {ws ws' : List Word64} {text text' : List Byte} {s t u : State}

theorem Renders.refl (s : State) : Renders [] [] s s := ⟨rfl, rfl, rfl, rfl, rfl, rfl, rfl, rfl⟩

theorem Renders.trans (h : Renders ws text s t) (h' : Renders ws' text' t u) :
    Renders (ws ++ ws') (text ++ text') s u where
  port := by rw [h.port, h'.port, List.append_assoc]
  pos := by rw [h'.pos, h.pos, List.length_append, Nat.add_assoc]
  buf := by rw [h'.buf, h.buf, h.cur, memWrite_append]
  cur := by rw [h'.cur, h.cur, List.length_append, Nat.add_assoc]
  bufSize := h'.bufSize.trans h.bufSize
  initDone := h'.initDone.trans h.initDone
  table := h'.table.trans h.table
  fcause := h'.fcause.trans h.fcause

/-- The common end of the formatters (20_memory.md R45), where the text fits. -/
theorem renders_emit {n : Nat} {rest : List Word64} (hp : s.port = ws ++ rest) (hn : ws.length = n)
    (hfit : s.cur.toNat + text.length ≤ s.bufSize.val) : Renders ws text s (emit text (consume n s)) where
  port := by rw [emit_port, consume_port, hp, List.drop_left' hn]
  pos := by rw [emit_pos, consume_pos, hn]
  buf := rfl
  cur := emit_cur_toNat (s := consume n s) hfit
  bufSize := rfl
  initDone := rfl
  table := rfl
  fcause := rfl

theorem Renders.setRes (h : Renders ws text s t) (n : Nat) : Renders ws text s (setRes n t) :=
  ⟨h.port, h.pos, h.buf, h.cur, h.bufSize, h.initDone, h.table, h.fcause⟩

end Renders

/-! ### One conversion -/

/-- The room that a conversion asks for is enough for its text (20_memory.md R44). -/
theorem text_length_le_minSize {c : Conversion} {ready : Bool} (hacc : c.accepted ready) :
    c.text.length ≤ minSize c.instr := by
  obtain ⟨i, payload⟩ := c
  cases i with
  | init opd => exact hacc.elim
  | char opd => exact Nat.le_refl 1
  | u8 opd =>
    obtain ⟨-, hfield, -⟩ := hacc
    exact (dec_length _).trans_le (ndec_le_three hfield)
  | u16 opd => exact (dec_length _).trans_le (ndec_le _)
  | str opd => exact (literal_length _ _).le
  | hex opd => exact (hexstr_length _).trans_le (nhex_le _)
  | hex2 opd => exact (hexstr_length _).trans_le (nhex_le _)
  | setcur opd => exact hacc.elim

section Conversion
variable {s : State} {opd : Word32} {rest : List Word64}

/-- A CHAR of a digit code writes that byte (41_decimal.md R91). -/
theorem exec_char_of_digit (hlo : 0x30 ≤ opd.toNat) (hhi : opd.toNat ≤ 0x39)
    (hroom : s.cur.toNat + 1 ≤ s.bufSize.val) : exec (.char opd) s = .next (emit [opd8 opd] (consume 1 s)) := by
  have hfield : opd.toNat < 256 := by omega
  rw [exec_char, toNat_opd8 hfield, if_neg (by omega), if_neg (by omega), if_neg (Nat.not_lt.2 hroom)]

/-- The end of U8 and U16 on a built table writes decimal text. -/
theorem renders_emitEntry {w : Word64} {v : Word16} (hbuilt : s.table.built = true) (hv : v.toNat = opd.toNat)
    (hp : s.port = [w] ++ rest) (hfit : s.cur.toNat + (dec opd.toNat).length ≤ s.bufSize.val) :
    Renders [w] (dec opd.toNat) s (emitEntry v (consume 1 s)) := by
  rw [emitEntry, consume_table, tblEntry_built hbuilt, hv]
  exact (renders_emit hp rfl hfit).setRes _

theorem renders_emitHex {w : Word64} (hp : s.port = [w] ++ rest)
    (hfit : s.cur.toNat + (hexstr opd).length ≤ s.bufSize.val) :
    Renders [w] (hexstr opd) s (emitHex opd (consume 1 s)) :=
  (renders_emit hp rfl hfit).setRes _

/-- A STR with a well-padded payload behind it copies that payload's literal (41_decimal.md R94). -/
theorem exec_str_of_payload {w : Word64} {payload : List Word64} (hp : s.port = w :: payload ++ rest)
    (hlen : payload.length = payloadWords opd.toNat) (hpad : paddingZero payload opd.toNat = true)
    (hroom : s.cur.toNat + opd.toNat ≤ s.bufSize.val) :
    exec (.str opd) s = .next (emit (literal payload opd.toNat) (consume (1 + payloadWords opd.toNat) s)) := by
  have hpresent : ¬ s.port.length < 1 + payloadWords opd.toNat := by
    simp only [hp, List.length_append, List.length_cons]
    omega
  have hpayload : payloadAt s opd.toNat = payload := by
    rw [payloadAt, hp, List.cons_append, List.drop_one, List.tail_cons, List.take_left' hlen]
  rw [exec_str, if_neg (Nat.not_lt.2 hroom), ← payloadWords, if_neg hpresent, hpayload,
    if_neg (Bool.ne_false_iff.2 hpad)]

/-- What an accepted conversion does where its capacity check passes (41_decimal.md R91 to R94; 42_hex.md R112,
R113). -/
theorem exec_renders {c : Conversion} (hbuilt : s.initDone = true → s.table.built = true)
    (hacc : c.accepted s.initDone) (hp : s.port = c.words ++ rest)
    (hroom : s.cur.toNat + minSize c.instr ≤ s.bufSize.val) :
    ∃ t, exec c.instr s = .next t ∧ Renders c.words c.text s t := by
  have hfit : s.cur.toNat + c.text.length ≤ s.bufSize.val :=
    (Nat.add_le_add_left (text_length_le_minSize hacc) _).trans hroom
  obtain ⟨i, payload⟩ := c
  cases i with
  | init opd => exact hacc.elim
  | setcur opd => exact hacc.elim
  | char opd =>
    obtain ⟨rfl, hlo, hhi⟩ := hacc
    exact ⟨_, exec_char_of_digit hlo hhi hroom, renders_emit hp rfl hfit⟩
  | u8 opd =>
    obtain ⟨rfl, hfield, hready⟩ := hacc
    exact ⟨_, (exec_u8 opd s).trans (renderEntry_of_accepted hfield hready hroom),
      renders_emitEntry (hbuilt hready) (toNat_u8Index hfield) hp hfit⟩
  | u16 opd =>
    obtain ⟨rfl, hfield, hready⟩ := hacc
    exact ⟨_, (exec_u16 opd s).trans (renderEntry_of_accepted hfield hready hroom),
      renders_emitEntry (hbuilt hready) (toNat_opd16 hfield) hp hfit⟩
  | str opd =>
    obtain ⟨hlen, hzero⟩ := hacc
    have hpad : paddingZero payload opd.toNat = true := by
      refine List.all_eq_true.2 fun k hk => beq_iff_eq.2 ?_
      obtain ⟨hlo, hhi⟩ := List.mem_range'_1.1 hk
      rw [payloadWords] at hhi
      exact hzero k hlo (by omega)
    exact ⟨_, exec_str_of_payload hp hlen hpad hroom,
      renders_emit hp ((congrArg (· + 1) hlen).trans (Nat.add_comm _ 1)) hfit⟩
  | hex opd =>
    cases hacc
    exact ⟨_, (exec_hex opd s).trans (renderHex_of_room hroom), renders_emitHex hp hfit⟩
  | hex2 opd =>
    cases hacc
    exact ⟨_, (exec_hex2 opd s).trans (renderHex_of_room hroom), renders_emitHex hp hfit⟩

end Conversion

/-! ### A sequence of conversions -/

/-- Accepted conversions with room run in one step each. A conversion keeps INIT_DONE and the table, and leaves the
cursor where the capacity check of the next one starts. -/
theorem run_renders (cs : List Conversion) {rest : List Word64} {s : State}
    (hbuilt : s.initDone = true → s.table.built = true) (h0 : s.fcause = 0)
    (hacc : ∀ c ∈ cs, c.accepted s.initDone) (hroom : roomFor s.bufSize.val s.cur.toNat cs)
    (hp : s.port = cs.flatMap Conversion.words ++ rest) :
    ∃ t, Host.Core.run Sys2Proof.core cs.length s = .next t ∧
      Renders (cs.flatMap Conversion.words) (cs.flatMap Conversion.text) s t := by
  induction cs generalizing s with
  | nil => exact ⟨s, core_run_zero s, Renders.refl s⟩
  | cons c cs ih =>
    obtain ⟨haccHead, haccTail⟩ := List.forall_mem_cons.1 hacc
    obtain ⟨hroomHead, hroomTail⟩ := hroom
    rw [List.flatMap_cons, List.append_assoc] at hp
    obtain ⟨u, hexec, hu⟩ := exec_renders hbuilt haccHead hp hroomHead
    have hstep : step s = .next u :=
      (step_of_fetch_command (fetch_of_command h0 hp (decodeOfEncodeIsTheCommand c.instr))).trans hexec
    have hrest : u.port = cs.flatMap Conversion.words ++ rest := List.append_cancel_left (hu.port.symm.trans hp)
    obtain ⟨t, hrun, ht⟩ := ih (by rwa [hu.initDone, hu.table]) (hu.fcause.trans h0) (by rwa [hu.initDone])
      (by rwa [hu.bufSize, hu.cur]) hrest
    exact ⟨t, (core_run_succ cs.length hstep).trans hrun, hu.trans ht⟩

/-- Settles O42: the run takes the words of all the conversions and writes their texts as one run of bytes. -/
theorem conversionsWriteBackToBack : Obligations.ConversionsWriteBackToBack := by
  intro cs rest s hinv h0 hacc hroom hp
  obtain ⟨t, hrun, ht⟩ := run_renders cs hinv.table_built h0 hacc hroom hp
  refine ⟨t, hrun, ht.fcause.trans h0, List.append_cancel_left (ht.port.symm.trans hp), ht.pos, ht.cur, fun a => ?_⟩
  rw [ht.buf, readByte_memWrite]

end Sys2Proof.Proofs
end

section
/-!
PROOFS. Faults and the halt (60_exceptions.md R131 to R135, R137). A step leaves the fault record alone, or it is a fault
entry: one of the possible causes of the word at the head of the stream, and nothing changed but the record and the words
taken. A halted block has no step, and a host action other than reset leaves its registers alone.
-/

namespace Sys2Proof.Proofs

open Sys2Proof.Machine Sys2Proof.Safety

/-! ### The causes of a command word -/

/-- The possible causes of a word are told from its opcode alone (60_exceptions.md R132). -/
theorem possibleCauses_eq_encode {w : Word64} {i : Instr} (hopc : opcodeOf i = opcField w) :
    possibleCauses w = possibleCauses (encode i) := by
  obtain ⟨hencoded, -⟩ := encodeFields i
  rw [possibleCauses, possibleCauses, hencoded, hopc]

theorem possibleCauses_of_reserved_opcode {w : Word64} (h : w.toNat / 2 ^ 56 = 0 ∨ 9 ≤ w.toNat / 2 ^ 56) :
    possibleCauses w = [1] := by
  rw [← toNat_opcField] at h
  unfold possibleCauses
  split
  case h_9 => rfl
  all_goals omega

/-- Every command can be refused with ReservedBits (60_exceptions.md R132). -/
theorem reservedBits_mem_possibleCauses (i : Instr) : 2 ∈ possibleCauses (encode i) := by
  rw [possibleCauses_encode]
  cases i <;> simp

/-- The fault of an illegal word is a possible cause of that word (30_encoding.md R65). -/
theorem decodeFault_mem_possibleCauses {w : Word64} {e : DecodeError} (h : decode w = .error e) :
    (faultCode (decodeFault e)).toNat ∈ possibleCauses w := by
  cases hi : instrOf (opcField w) (opdField w) with
  | none =>
    have hopc := (instrOf_eq_none_iff _ _).1 hi
    rw [toNat_opcField] at hopc
    cases (decode_of_reserved_opcode hopc).symm.trans h
    rw [possibleCauses_of_reserved_opcode hopc]
    exact List.mem_singleton_self 1
  | some i =>
    have he : e = .reservedBits := by
      simp only [decode, hi] at h
      split at h
      · exact (Except.error.inj h).symm
      · cases h
    obtain ⟨hopc, -⟩ := instrOf_eq_some hi
    rw [he, possibleCauses_eq_encode hopc]
    exact reservedBits_mem_possibleCauses i

/-! ### Fault entry -/

/-- How many words a command that begins with `w` has taken when it faults with `f`: its command word, and for PadNonZero
its payload words too (60_exceptions.md R133). -/
def faultWords (f : FaultCause) (w : Word64) : Nat :=
  if f = .padNonZero then 1 + payloadWords (opdField w).toNat else 1

/-- From `s` to `t` the block has faulted on the command word `w`, with a cause that this word can have, and nothing else
has changed (60_exceptions.md R132, R133). -/
def FaultsOn (w : Word64) (s t : State) : Prop :=
  ∃ f, (faultCode f).toNat ∈ possibleCauses w ∧ t = takeFault f w (faultWords f w) s

theorem faultCode_eq_eight_iff (f : FaultCause) : faultCode f = 8 ↔ f = .padNonZero := by
  cases f <;> decide

theorem decodeFault_ne_padNonZero (e : DecodeError) : decodeFault e ≠ .padNonZero := by
  cases e <;> decide

/-- A command leaves the fault record as it is, or it faults on its own command word. -/
theorem exec_faultRecord {i : Instr} {s t : State} (ht : exec i s = .next t) :
    (t.fcause = s.fcause ∧ t.fcmd = s.fcmd) ∨ FaultsOn (encode i) s t := by
  rcases exec_cases i s with ⟨f, n, hx, hcause, hn⟩ | ⟨hx, -⟩ | ⟨hx, -⟩ | ⟨c, -, -, hx⟩ | ⟨out, n, hx, -⟩ |
    ⟨v, hx, -⟩ | ⟨v, hx, -⟩
  · have hwords : n = faultWords f (encode i) := by
      rcases hn with ⟨hf, rfl⟩ | ⟨rfl, opd, rfl, rfl, -⟩
      · exact (if_neg hf).symm
      · obtain ⟨-, -, hopd⟩ := encodeFields (.str opd)
        rw [faultWords, if_pos rfl, hopd, operandOf]
    cases hx.symm.trans ht
    exact .inr ⟨f, hcause, hwords ▸ rfl⟩
  all_goals
    cases hx.symm.trans ht
    exact .inl ⟨rfl, rfl⟩

/-- A step leaves the fault record as it is, or it faults on the word at the head of the stream. -/
theorem step_faultRecord {s t : State} (ht : step s = .next t) :
    (t.fcause = s.fcause ∧ t.fcmd = s.fcmd) ∨ ∃ w rest, s.port = w :: rest ∧ FaultsOn w s t := by
  rcases step_cases s with hs | ⟨w, rest, e, hp, hd, hs⟩ | ⟨w, rest, i, hp, hd, hs⟩
  · cases hs.symm.trans ht
    exact .inl ⟨rfl, rfl⟩
  · cases hs.symm.trans ht
    have hone : faultWords (decodeFault e) w = 1 := if_neg (decodeFault_ne_padNonZero e)
    exact .inr ⟨w, rest, hp, decodeFault e, decodeFault_mem_possibleCauses hd, by rw [hone]⟩
  · refine (exec_faultRecord (hs.symm.trans ht)).imp_right fun hfault => ⟨w, rest, hp, ?_⟩
    rwa [encode_of_decode hd] at hfault

/-- Settles O14: a step that changes FCAUSE is a fault entry, and only PadNonZero has the code 8. -/
theorem faultEntryIsPrecise : Obligations.FaultEntryIsPrecise := by
  intro s t h0 ht hfault
  rcases step_faultRecord ht with ⟨hkept, -⟩ | ⟨w, rest, hp, f, hcause, rfl⟩
  · exact absurd (hkept.trans h0) hfault
  · refine ⟨w, rest, faultWords f w, hp, hcause, rfl, fun hne => ?_, fun hpad => ?_⟩
    · exact if_neg (mt (faultCode_eq_eight_iff f).2 hne)
    · rw [faultWords, if_pos ((faultCode_eq_eight_iff f).1 hpad), toNat_opdField, payloadWords]

/-! ### The host and the registers -/

/-- The registers, the digit table and the stream position of `t` are those of `s`. -/
structure SameRegisters (s t : State) : Prop where
  fcause : t.fcause = s.fcause
  fcmd : t.fcmd = s.fcmd
  cur : t.cur = s.cur
  res : t.res = s.res
  initDone : t.initDone = s.initDone
  table : t.table = s.table
  pos : t.pos = s.pos

theorem SameRegisters.refl (s : State) : SameRegisters s s := ⟨rfl, rfl, rfl, rfl, rfl, rfl, rfl⟩

/-- The host's actions but reset change the stream and BUF only (20_memory.md R52). -/
theorem hostStep_keeps_registers {h : HostAction} {s t : State} {r : HostReply} (hne : h ≠ .reset)
    (ht : hostStep h s = .next (t, r)) : SameRegisters s t := by
  rcases hostStep_cases ht with ⟨w, -, rfl⟩ | ⟨rfl, -⟩ | ⟨a, b, -, -, -, rfl⟩ | ⟨hreset, -⟩
  · exact ⟨rfl, rfl, rfl, rfl, rfl, rfl, rfl⟩
  · exact .refl t
  · exact ⟨rfl, rfl, rfl, rfl, rfl, rfl, rfl⟩
  · exact absurd hreset hne

theorem hostStep_reset_fcause {s t : State} {r : HostReply} (ht : hostStep .reset s = .next (t, r)) :
    t.fcause = 0 := by
  cases ht
  rfl

theorem faultRecordOk_of_eq {s t : State} (hok : faultRecordOk s) (hcause : t.fcause = s.fcause)
    (hword : t.fcmd = s.fcmd) : faultRecordOk t := by
  rwa [faultRecordOk, hcause, hword]

/-- Settles O15: a step keeps the record or writes a possible cause of the word it records, the host keeps the record or
clears it. -/
theorem faultRecordStaysConsistent : Obligations.FaultRecordStaysConsistent := by
  intro e s t r hok ht
  cases e with
  | block =>
    rcases step_faultRecord (step_of_systemStep_block ht) with ⟨hcause, hword⟩ | ⟨w, rest, -, f, hcause, rfl⟩
    · exact faultRecordOk_of_eq hok hcause hword
    · exact .inr hcause
  | host h =>
    by_cases hreset : h = .reset
    · subst hreset
      exact .inl (congrArg BitVec.toNat (hostStep_reset_fcause ht))
    · have hkept := hostStep_keeps_registers hreset ht
      exact faultRecordOk_of_eq hok hkept.fcause hkept.fcmd

/-! ### The halt -/

section Halted
variable {s : State}

theorem step_of_faulted (h : s.fcause ≠ 0) : step s = .next s := step_of_fetch_nothing (fetch_of_faulted h)

theorem run_of_faulted (h : s.fcause ≠ 0) (k : Nat) : Host.Core.run core k s = .next s := by
  induction k with
  | zero => exact core_run_zero s
  | succ k ih => exact (core_run_succ k (step_of_faulted h)).trans ih

/-- No event but reset changes the registers of a halted block (60_exceptions.md R135, R137). -/
theorem systemStep_keeps_registers_of_faulted {e : Event} {t : State} {r : HostReply} (h : s.fcause ≠ 0)
    (hne : e ≠ .host .reset) (ht : systemStep e s = .next (t, r)) : SameRegisters s t := by
  cases e with
  | block =>
    cases (step_of_faulted h).symm.trans (step_of_systemStep_block ht)
    exact .refl s
  | host a => exact hostStep_keeps_registers (fun hreset => hne (congrArg Event.host hreset)) ht

end Halted

/-- Settles O16. -/
theorem firstFaultIsKept : Obligations.FirstFaultIsKept := by
  intro e s t r h hne ht
  obtain ⟨hcause, hword, hcur, hres, hinit, htable, hpos⟩ := systemStep_keeps_registers_of_faulted h hne ht
  exact ⟨hcause, hword, hcur, hres, hinit, htable, hpos⟩

/-- Settles O8: a halted block is idle, so it takes no word and BUF is open to the host. -/
theorem haltedBlockTakesNoWords : Obligations.HaltedBlockTakesNoWords := by
  intro s h
  have hidle : idle s = true := idle_of_faulted h
  refine ⟨run_of_faulted h, fun index => ⟨readRegister s index, rfl⟩,
    fun a b ha => ⟨⟨_, readBuf_of_idle ha hidle⟩, ⟨_, writeBuf_of_idle b ha hidle⟩⟩,
    fun action t r ht h0 => ?_, fun t r ht => hostStep_reset_fcause ht,
    fun ⟨_, hrunning⟩ => h ((faulted_eq_false s).1 hrunning), .inl ((faulted_iff s).2 h)⟩
  by_contra hne
  exact h ((hostStep_keeps_registers hne ht).fcause.symm.trans h0)

end Sys2Proof.Proofs
end

section
/-!
PROOFS. Reset and hazards (70_reset_and_hazards.md R150, R161, R162, R164). A block without a step stays as it is, and a
step takes at least one word; so a run comes to its end within as many steps as there are words on the stream.
-/

namespace Sys2Proof.Proofs

open Sys2Proof.Machine Sys2Proof.Safety

/-! ### Waiting -/

/-- A block without a step stays as it is: it is halted, has no word, or its STR waits (70_reset_and_hazards.md R161). -/
theorem step_of_no_step {s : State} (h : hasStep s = false) : step s = .next s := by
  rcases fetch_cases s with ⟨hf, -⟩ | ⟨w, rest, e, -, -, -, hf⟩ | ⟨w, rest, i, -, -, -, hf⟩
  · exact step_of_fetch_nothing hf
  · exact absurd (hasStep_of_fetch_illegal hf) (Bool.eq_false_iff.1 h)
  · obtain ⟨opd, rfl, hfit, hshort⟩ := (hasStep_eq_false_of_fetch_command hf).1 h
    rw [payloadWords] at hshort
    rw [step_of_fetch_command hf, exec_str, if_neg (Nat.not_lt.2 hfit), if_pos hshort]

/-- A command that does not wait takes at least its command word, whether it faults or completes. -/
theorem exec_advances {i : Instr} {s t : State} (hready : ∀ opd, i = .str opd →
      s.cur.toNat + opd.toNat ≤ s.bufSize.val → 1 + payloadWords opd.toNat ≤ s.port.length)
    (ht : exec i s = .next t) : s.pos < t.pos := by
  rcases exec_cases i s with ⟨f, n, hx, -, hn⟩ | ⟨-, opd, hi, hshort, hfit⟩ | ⟨hx, -⟩ | ⟨c, -, -, hx⟩ |
    ⟨out, n, hx, hn⟩ | ⟨v, hx, -⟩ | ⟨v, hx, -⟩
  · cases hx.symm.trans ht
    have hpos : 0 < n := by rcases hn with ⟨-, rfl⟩ | ⟨-, opd, -, rfl, -⟩ <;> omega
    exact Nat.lt_add_of_pos_right hpos
  · exact absurd (hready opd hi hfit) (Nat.not_le_of_lt hshort)
  · cases hx.symm.trans ht
    exact Nat.lt_succ_self s.pos
  · cases hx.symm.trans ht
    exact Nat.lt_succ_self s.pos
  · cases hx.symm.trans ht
    have hpos : 0 < n := by rcases hn with ⟨opd, -, rfl, -⟩ | ⟨opd, -, rfl, -⟩ <;> omega
    exact Nat.lt_add_of_pos_right hpos
  · cases hx.symm.trans ht
    exact Nat.lt_succ_self s.pos
  · cases hx.symm.trans ht
    exact Nat.lt_succ_self s.pos

/-- A step takes at least one word, and the words it takes were there (10_state.md R28, R30). -/
theorem step_takes_a_word {s : State} (h : hasStep s = true) :
    ∃ t n, step s = .next t ∧ 1 ≤ n ∧ n ≤ s.port.length ∧ t.port = s.port.drop n ∧ t.pos = s.pos + n := by
  obtain ⟨t, n, ht, hn, hport, hpos, -⟩ := everyStepAnswersNext s
  have hadvance : s.pos < t.pos := by
    rcases fetch_cases s with ⟨hf, -⟩ | ⟨w, rest, e, -, -, -, hf⟩ | ⟨w, rest, i, -, -, -, hf⟩
    · exact absurd h (Bool.eq_false_iff.1 (hasStep_of_fetch_nothing hf))
    · cases (step_of_fetch_illegal hf).symm.trans ht
      exact Nat.lt_succ_self s.pos
    · exact exec_advances (payload_ready_of_hasStep hf h) ((step_of_fetch_command hf).symm.trans ht)
  exact ⟨t, n, ht, by omega, hn, hport, hpos⟩

/-- A block that is not halted and has a word has no step exactly where that word is a STR that fits and waits for its
payload (70_reset_and_hazards.md R161). -/
theorem no_step_iff_waits {s : State} {w : Word64} {rest : List Word64} (h0 : s.fcause = 0) (hp : s.port = w :: rest) :
    hasStep s = false ↔ ∃ opd, decode w = .ok (.str opd) ∧ s.cur.toNat + opd.toNat ≤ s.bufSize.val ∧
      rest.length < (opd.toNat + 7) / 8 := by
  rw [← idle_eq_true, idleMeansNoCompleteCommand s]
  simp [h0, hp]

/-- Settles O9: a waiting block has no step, and every other one that is not halted and has a word has one. -/
theorem waitingBlockDoesNotChange : Obligations.WaitingBlockDoesNotChange := by
  intro s h0
  refine ⟨fun hp => step_of_fetch_nothing (fetch_of_empty hp), fun w rest hp => ⟨fun opd hd hfit hshort => ?_,
    fun hready => ?_⟩⟩
  · exact step_of_no_step ((no_step_iff_waits h0 hp).2 ⟨opd, hd, hfit, hshort⟩)
  · have hstep : hasStep s = true := by
      refine Bool.ne_false_iff.1 fun hnone => ?_
      obtain ⟨opd, hd, hfit, hshort⟩ := (no_step_iff_waits h0 hp).1 hnone
      exact (hready opd hd).elim (Nat.not_lt.2 hfit) (Nat.not_le.2 hshort)
    obtain ⟨t, n, ht, hn, -, -, hpos⟩ := step_takes_a_word hstep
    exact ⟨t, ht, by omega⟩

/-! ### The end of a run -/

/-- A block without a step is at an end of its run, one way or the other (70_reset_and_hazards.md R162). -/
theorem run_ended_of_no_step {s : State} (h : hasStep s = false) : runCompleted s ∨ runFailed s := by
  by_cases h0 : s.fcause = 0
  · have hrunning := (faulted_eq_false s).2 h0
    cases hp : s.port with
    | nil => exact .inl ⟨hp, hrunning⟩
    | cons w rest =>
      obtain ⟨opd, hd, -, -⟩ := (no_step_iff_waits h0 hp).1 h
      exact .inr (.inr ⟨hrunning, w, rest, opd, hp, hd, h⟩)
  · exact .inr (.inl ((faulted_iff s).2 h0))

/-- Once the block has no step, the rest of the run is idle. -/
theorem run_of_no_step {s : State} (h : hasStep s = false) (k : Nat) : Host.Core.run core k s = .next s := by
  induction k with
  | zero => exact core_run_zero s
  | succ k ih => exact (core_run_succ k (step_of_no_step h)).trans ih

/-- A run of at least as many steps as there are words reaches a state without a step, the taken words counted by the
position. -/
theorem run_reaches_no_step (k : Nat) {s : State} (hk : s.port.length ≤ k) :
    ∃ t n, Host.Core.run core k s = .next t ∧ hasStep t = false ∧ t.port = s.port.drop n ∧ t.pos = s.pos + n := by
  induction k generalizing s with
  | zero =>
    have hempty : s.port = [] := List.eq_nil_of_length_eq_zero (Nat.le_zero.1 hk)
    exact ⟨s, 0, core_run_zero s, hasStep_of_fetch_nothing (fetch_of_empty hempty), rfl, rfl⟩
  | succ k ih =>
    cases hs : hasStep s with
    | false => exact ⟨s, 0, run_of_no_step hs (k + 1), hs, rfl, rfl⟩
    | true =>
      obtain ⟨u, n, hu, hn, -, hport, hpos⟩ := step_takes_a_word hs
      obtain ⟨t, m, hrun, hend, htport, htpos⟩ := ih (s := u) (by rw [hport, List.length_drop]; omega)
      refine ⟨t, n + m, (core_run_succ k hu).trans hrun, hend, ?_, ?_⟩
      · rw [htport, hport, List.drop_drop]
      · rw [htpos, hpos, Nat.add_assoc]

/-- Settles O12: every step before the end takes a word, so the words bound the steps. -/
theorem everyRunEnds : Obligations.EveryRunEnds := by
  intro s
  obtain ⟨t, n, hrun, hend, hport, hpos⟩ := run_reaches_no_step s.port.length (le_refl _)
  exact ⟨t, n, hrun, hend, hport, hpos, run_ended_of_no_step hend⟩

/-! ### Reset -/

/-- The word delivered after a reset is the next one taken: no delivered word is left in front of it
(70_reset_and_hazards.md R150). -/
theorem step_deliver_resetBlock (s : State) {w : Word64} {i : Instr} (hd : decode w = .ok i) :
    step (deliver w (resetBlock s)) = exec i (deliver w (resetBlock s)) :=
  stepRunsTheDecodedCommand (deliver w (resetBlock s)) w [] i rfl rfl hd

/-- Settles O47. -/
theorem resetClearsTheBlock : Obligations.ResetClearsTheBlock := by
  intro s
  have hwait : step (resetBlock s) = .next (resetBlock s) := step_of_fetch_nothing (fetch_of_empty (resetBlock_port s))
  exact ⟨resetBlock s, rfl, resetBlock_initDone s, resetBlock_fcause s, resetBlock_cur s, resetBlock_res s,
    resetBlock_fcmd s, resetBlock_pos s, resetBlock_buf s, resetBlock_bufSize s, rfl, hwait,
    fun _ _ hd => step_deliver_resetBlock s hd⟩

/-- Settles O48: reset has cleared INIT_DONE, so the second check of U8 and U16 fails. -/
theorem resetRequiresInitAgain : Obligations.ResetRequiresInitAgain := by
  intro s opd t u
  obtain ⟨hdecode16, -, hnotInit16, -⟩ := u16WritesDecimal t opd
  obtain ⟨hdecode8, -, hnotInit8, -⟩ := u8WritesDecimal u opd
  exact ⟨fun hfield => (step_deliver_resetBlock s hdecode16).trans (hnotInit16 hfield rfl),
    fun hfield => (step_deliver_resetBlock s hdecode8).trans (hnotInit8 hfield rfl)⟩

end Sys2Proof.Proofs
end
